-- ==== Sys2Proof/Word.lean ====
section
/-! DEFINITION. The word, the byte and the register number (00_scope.md R6, R9; 10_state.md R30). -/
namespace Sys2Proof

/-- Every register value, immediate, address and ALU result: `bits32` (00_scope.md R9). -/
abbrev Word := BitVec 32

/-- One byte lane of a data-store word (20_memory.md R65, R66). -/
abbrev Byte := BitVec 8

/-- The number of a general register, 0..31 (10_state.md R30). -/
abbrev Reg := Fin 32

end Sys2Proof
end

