-- ==== Sys2Proof/Config.lean ====
section
/-! DEFINITION. The OPEN parameters of the hardware (00_scope.md R6; 92_eei_decisions.md D6, D11). A machine state carries
its parameters, so a statement over all states is a statement for every value of them (assumption log 2). -/
namespace Sys2Proof

/-- The parameters the spec leaves OPEN (00_scope.md R6). -/
structure Config where
  /-- IMEM_WORDS: how many words the instruction store has (20_memory.md R60, D6). -/
  imemWords : Nat
  /-- DMEM_WORDS: how many words the data store has (20_memory.md R61, D6). -/
  dmemWords : Nat
  /-- EXTRA_OPCODE_TAGS: the opcodes that are recognized but have no behaviour (30_encoding.md R111, D11). -/
  extraOpcodeTags : List (BitVec 7)
  deriving DecidableEq, Repr

/-- The parameters of `State.reset`. DESIGN CHOICE (assumption log 2): the convention of 95_test_vectors.md and the
"default empty" of 93_implementation_defined.md A-10; the spec itself fixes no store size. -/
def Config.atReset : Config := { imemWords := 2048, dmemWords := 64, extraOpcodeTags := [] }

end Sys2Proof
end

