-- ==== Sys2Proof/Syntax.lean ====
section
/-! DEFINITION. The 37 instructions, one constructor per row of opcode_table.json (30_encoding.md R126). Operands are the
encoded fields: a register number, the 12-bit or 20-bit immediate as stored, the 5-bit shift amount, and for branches and
JAL the reassembled byte offset of 13 or 21 bits, whose bit 0 is always 0 (R102, R104; checked in WellFormed). -/
namespace Sys2Proof

inductive Instr where
  -- register-register, opcode OP (40_integer_computational.md R150 to R159)
  | add  (rd rs1 rs2 : Reg)
  | sub  (rd rs1 rs2 : Reg)
  | sll  (rd rs1 rs2 : Reg)
  | slt  (rd rs1 rs2 : Reg)
  | sltu (rd rs1 rs2 : Reg)
  | xor  (rd rs1 rs2 : Reg)
  | srl  (rd rs1 rs2 : Reg)
  | sra  (rd rs1 rs2 : Reg)
  | or   (rd rs1 rs2 : Reg)
  | and  (rd rs1 rs2 : Reg)
  -- register-immediate, opcode OP_IMM (R160 to R168)
  | addi  (rd rs1 : Reg) (imm : BitVec 12)
  | slti  (rd rs1 : Reg) (imm : BitVec 12)
  | sltiu (rd rs1 : Reg) (imm : BitVec 12)
  | xori  (rd rs1 : Reg) (imm : BitVec 12)
  | ori   (rd rs1 : Reg) (imm : BitVec 12)
  | andi  (rd rs1 : Reg) (imm : BitVec 12)
  | slli  (rd rs1 : Reg) (shamt : BitVec 5)
  | srli  (rd rs1 : Reg) (shamt : BitVec 5)
  | srai  (rd rs1 : Reg) (shamt : BitVec 5)
  -- upper immediate (R170, R171)
  | lui   (rd : Reg) (imm : BitVec 20)
  | auipc (rd : Reg) (imm : BitVec 20)
  -- jumps (41_control_transfer.md R192, R193)
  | jal  (rd : Reg) (offset : BitVec 21)
  | jalr (rd rs1 : Reg) (imm : BitVec 12)
  -- branches (R200 to R205)
  | beq  (rs1 rs2 : Reg) (offset : BitVec 13)
  | bne  (rs1 rs2 : Reg) (offset : BitVec 13)
  | blt  (rs1 rs2 : Reg) (offset : BitVec 13)
  | bge  (rs1 rs2 : Reg) (offset : BitVec 13)
  | bltu (rs1 rs2 : Reg) (offset : BitVec 13)
  | bgeu (rs1 rs2 : Reg) (offset : BitVec 13)
  -- loads (42_loads_stores.md R222 to R226)
  | lb  (rd rs1 : Reg) (imm : BitVec 12)
  | lh  (rd rs1 : Reg) (imm : BitVec 12)
  | lw  (rd rs1 : Reg) (imm : BitVec 12)
  | lbu (rd rs1 : Reg) (imm : BitVec 12)
  | lhu (rd rs1 : Reg) (imm : BitVec 12)
  -- stores (R230 to R232): the value register rs2 first, as the spec writes the operands
  | sb (rs2 rs1 : Reg) (imm : BitVec 12)
  | sh (rs2 rs1 : Reg) (imm : BitVec 12)
  | sw (rs2 rs1 : Reg) (imm : BitVec 12)
  deriving DecidableEq, Repr

end Sys2Proof
end

