-- ==== Sys2Proof/Decode.lean ====
section
/-! DEFINITION. The decoder (30_encoding.md): extension primitives (00_scope.md R13, R14), the seven field-extraction
records (R91 to R99), the immediates (R100 to R105, R108), the operation catalog (R110 to R120), the dispatch mux with its
whole output (R124, R125), total on every word and rejecting by reason (R123), and the instruction of that output; then the
encoder, written from the same formats; then the rows of opcode_table.json. Numeric opcode and funct values are the spec's
decision D20, field positions its decision D21 (assumption log 5). -/
namespace Sys2Proof

/-! ### Extension primitives -/

/-- `sext_w(v)` (00_scope.md R13): bit w-1 of v copied into bits 31..w. Widths 1..32; no instruction uses width 0 (R15). -/
def sext {n : Nat} (w : Nat) (v : BitVec n) : Word := (v.setWidth w).signExtend 32

/-- `zext_w(v)` (00_scope.md R14): every bit at position w or above cleared. -/
def zext {n : Nat} (w : Nat) (v : BitVec n) : Word := (v.setWidth w).setWidth 32

/-! ### Field-extraction records: total and pure, for any word (30_encoding.md R91, R106) -/

/-- `opcode = w[6:0]` (30_encoding.md R93). -/
def opcodeField (w : Word) : BitVec 7 := w.extractLsb' 0 7

/-- The register number in a 5-bit field. -/
def regOf (f : BitVec 5) : Reg := f.toFin

/-- The 5-bit field of a register number. -/
def regBits (r : Reg) : BitVec 5 := BitVec.ofFin (w := 5) r

/-- The R-type fields (30_encoding.md R94). -/
structure RType where
  rd     : Reg
  funct3 : BitVec 3
  rs1    : Reg
  rs2    : Reg
  funct7 : BitVec 7
  deriving DecidableEq, Repr

def decodeR (w : Word) : RType :=
  { rd := regOf (w.extractLsb' 7 5), funct3 := w.extractLsb' 12 3, rs1 := regOf (w.extractLsb' 15 5)
    rs2 := regOf (w.extractLsb' 20 5), funct7 := w.extractLsb' 25 7 }

/-- The I-type fields, with the two extra views of the immediate (30_encoding.md R95). -/
structure IType where
  rd      : Reg
  funct3  : BitVec 3
  rs1     : Reg
  imm     : BitVec 12
  /-- view imm[4:0], the shift amount (R105) -/
  imm4_0  : BitVec 5
  /-- view imm[11:5], in the funct7 position -/
  imm11_5 : BitVec 7
  deriving DecidableEq, Repr

def decodeI (w : Word) : IType :=
  { rd := regOf (w.extractLsb' 7 5), funct3 := w.extractLsb' 12 3, rs1 := regOf (w.extractLsb' 15 5)
    imm := w.extractLsb' 20 12, imm4_0 := w.extractLsb' 20 5, imm11_5 := w.extractLsb' 25 7 }

/-- The S-type fields (30_encoding.md R96). -/
structure SType where
  imm4_0  : BitVec 5
  funct3  : BitVec 3
  rs1     : Reg
  rs2     : Reg
  imm11_5 : BitVec 7
  deriving DecidableEq, Repr

def decodeS (w : Word) : SType :=
  { imm4_0 := w.extractLsb' 7 5, funct3 := w.extractLsb' 12 3, rs1 := regOf (w.extractLsb' 15 5)
    rs2 := regOf (w.extractLsb' 20 5), imm11_5 := w.extractLsb' 25 7 }

/-- `{imm[11:5], imm[4:0]}` (30_encoding.md R101). -/
def SType.imm (f : SType) : BitVec 12 := f.imm11_5 ++ f.imm4_0

/-- The B-type fields (30_encoding.md R97). -/
structure BType where
  imm11   : BitVec 1
  imm4_1  : BitVec 4
  funct3  : BitVec 3
  rs1     : Reg
  rs2     : Reg
  imm10_5 : BitVec 6
  imm12   : BitVec 1
  deriving DecidableEq, Repr

def decodeB (w : Word) : BType :=
  { imm11 := w.extractLsb' 7 1, imm4_1 := w.extractLsb' 8 4, funct3 := w.extractLsb' 12 3
    rs1 := regOf (w.extractLsb' 15 5), rs2 := regOf (w.extractLsb' 20 5)
    imm10_5 := w.extractLsb' 25 6, imm12 := w.extractLsb' 31 1 }

/-- `{imm[12], imm[11], imm[10:5], imm[4:1], 0}` (30_encoding.md R102). -/
def BType.offset (f : BType) : BitVec 13 := f.imm12 ++ f.imm11 ++ f.imm10_5 ++ f.imm4_1 ++ 0#1

/-- The U-type fields (30_encoding.md R98). -/
structure UType where
  rd  : Reg
  /-- imm[31:12] -/
  imm : BitVec 20
  deriving DecidableEq, Repr

def decodeU (w : Word) : UType := { rd := regOf (w.extractLsb' 7 5), imm := w.extractLsb' 12 20 }

/-- The J-type fields (30_encoding.md R99). -/
structure JType where
  rd       : Reg
  imm19_12 : BitVec 8
  imm11    : BitVec 1
  imm10_1  : BitVec 10
  imm20    : BitVec 1
  deriving DecidableEq, Repr

def decodeJ (w : Word) : JType :=
  { rd := regOf (w.extractLsb' 7 5), imm19_12 := w.extractLsb' 12 8, imm11 := w.extractLsb' 20 1
    imm10_1 := w.extractLsb' 21 10, imm20 := w.extractLsb' 31 1 }

/-- `{imm[20], imm[19:12], imm[11], imm[10:1], 0}`, by field name (30_encoding.md R104; 90_conflicts.md C1, C2). -/
def JType.offset (f : JType) : BitVec 21 := f.imm20 ++ f.imm19_12 ++ f.imm11 ++ f.imm10_1 ++ 0#1

/-! ### Immediates as 32-bit values (30_encoding.md R100 to R104, R108) -/

def immI (w : Word) : Word := sext 12 (decodeI w).imm
def immS (w : Word) : Word := sext 12 (decodeS w).imm
def immB (w : Word) : Word := sext 13 (decodeB w).offset
def immU (w : Word) : Word := (decodeU w).imm ++ 0#12
def immJ (w : Word) : Word := sext 21 (decodeJ w).offset

/-- The six formats (30_encoding.md R91). -/
inductive Format where
  | R | I | S | B | U | J
  deriving DecidableEq, Repr

/-- The immediate mux (30_encoding.md R108). -/
def immMux : Format → Word → Word
  | .I, w => immI w
  | .S, w => immS w
  | .B, w => immB w
  | .U, w => immU w
  | .J, w => immJ w
  | .R, _ => 0

/-! ### The operation catalog -/

/-- The ten named opcode tags (30_encoding.md R111, R112). -/
inductive Opcode where
  | load | opImm | auipc | store | op | lui | branch | jalr | jal | system
  deriving DecidableEq, Repr

/-- The numeric value of a named opcode (30_encoding.md R112). -/
def Opcode.bits : Opcode → BitVec 7
  | .load   => 0b0000011#7
  | .opImm  => 0b0010011#7
  | .auipc  => 0b0010111#7
  | .store  => 0b0100011#7
  | .op     => 0b0110011#7
  | .lui    => 0b0110111#7
  | .branch => 0b1100011#7
  | .jalr   => 0b1100111#7
  | .jal    => 0b1101111#7
  | .system => 0b1110011#7

/-- The opcode tag of a 7-bit value, if it is one of the ten named ones (30_encoding.md R112, R133). -/
def opcodeOf (b : BitVec 7) : Option Opcode :=
  match b with
  | 0b0000011#7 => some .load
  | 0b0010011#7 => some .opImm
  | 0b0010111#7 => some .auipc
  | 0b0100011#7 => some .store
  | 0b0110011#7 => some .op
  | 0b0110111#7 => some .lui
  | 0b1100011#7 => some .branch
  | 0b1100111#7 => some .jalr
  | 0b1101111#7 => some .jal
  | 0b1110011#7 => some .system
  | _ => none

/-- Which format decoder an opcode selects; none for SYSTEM (30_encoding.md R107). -/
def Opcode.format : Opcode → Option Format
  | .op => some .R
  | .opImm => some .I
  | .load => some .I
  | .jalr => some .I
  | .store => some .S
  | .branch => some .B
  | .lui => some .U
  | .auipc => some .U
  | .jal => some .J
  | .system => none

/-- Why a word is illegal (30_encoding.md R123). -/
inductive IllegalReason where
  /-- the opcode is neither named nor in EXTRA_OPCODE_TAGS -/
  | unknownOpcode
  /-- the opcode is named and the funct fields match no row -/
  | unknownFunct
  /-- the opcode is SYSTEM or in EXTRA_OPCODE_TAGS -/
  | unimplemented
  deriving DecidableEq, Repr

/-! ### The dispatch mux -/

/-- The 37 operation tags (30_encoding.md R126). -/
inductive OpTag where
  | add | sub | sll | slt | sltu | xor | srl | sra | or | and
  | addi | slti | sltiu | xori | ori | andi | slli | srli | srai
  | lui | auipc | jal | jalr
  | beq | bne | blt | bge | bltu | bgeu
  | lb | lh | lw | lbu | lhu | sb | sh | sw
  deriving DecidableEq, Repr

/-- The format of an operation, which is its opcode's (30_encoding.md R107). -/
def OpTag.format : OpTag → Format
  | .add | .sub | .sll | .slt | .sltu | .xor | .srl | .sra | .or | .and => .R
  | .addi | .slti | .sltiu | .xori | .ori | .andi | .slli | .srli | .srai => .I
  | .lui | .auipc => .U
  | .jal => .J
  | .jalr => .I
  | .beq | .bne | .blt | .bge | .bltu | .bgeu => .B
  | .lb | .lh | .lw | .lbu | .lhu => .I
  | .sb | .sh | .sw => .S

/-- What the dispatch mux puts out for a legal word: the tag and every field, read by the operation or not (30_encoding.md
R124, R125). -/
structure DispatchOutput where
  tag   : OpTag
  rd    : Reg
  rs1   : Reg
  rs2   : Reg
  /-- the assembled 32-bit immediate of the tag's format (R108) -/
  imm   : Word
  /-- the shift amount (R105) -/
  shamt : BitVec 5
  deriving DecidableEq, Repr

/-- Every field of a word under a tag: rd = w[11:7], rs1 = w[19:15], rs2 = w[24:20], shamt = w[24:20], whatever the format
(30_encoding.md R124). -/
def dispatchOutput (t : OpTag) (w : Word) : DispatchOutput :=
  { tag := t, rd := (decodeR w).rd, rs1 := (decodeR w).rs1, rs2 := (decodeR w).rs2, imm := immMux t.format w
    shamt := (decodeI w).imm4_0 }

/-- What `Dispatch` answers: a tag with its fields, or `Illegal(reason)` (30_encoding.md R124). -/
inductive Dispatched where
  | op      (d : DispatchOutput)
  | illegal (reason : IllegalReason)
  deriving DecidableEq, Repr

/-- Funct3-under-OP, with funct7 (30_encoding.md R114, R118). -/
def lookupOp (funct3 : BitVec 3) (funct7 : BitVec 7) : Option OpTag :=
  match funct3, funct7 with
  | 0b000#3, 0b0000000#7 => some .add
  | 0b000#3, 0b0100000#7 => some .sub
  | 0b001#3, 0b0000000#7 => some .sll
  | 0b010#3, 0b0000000#7 => some .slt
  | 0b011#3, 0b0000000#7 => some .sltu
  | 0b100#3, 0b0000000#7 => some .xor
  | 0b101#3, 0b0000000#7 => some .srl
  | 0b101#3, 0b0100000#7 => some .sra
  | 0b110#3, 0b0000000#7 => some .or
  | 0b111#3, 0b0000000#7 => some .and
  | _, _ => none

/-- Funct3 001 under OP_IMM: SLLI, `imm[11:5]` matched whole (30_encoding.md R113, R119). -/
def lookupShiftLeftImm (imm11_5 : BitVec 7) : Option OpTag :=
  match imm11_5 with
  | 0b0000000#7 => some .slli
  | _ => none

/-- Funct3 101 under OP_IMM: SRLI and SRAI, `imm[11:5]` matched whole (30_encoding.md R113, R119). -/
def lookupShiftRightImm (imm11_5 : BitVec 7) : Option OpTag :=
  match imm11_5 with
  | 0b0000000#7 => some .srli
  | 0b0100000#7 => some .srai
  | _ => none

/-- Funct3-under-OP-IMM (30_encoding.md R113). -/
def lookupOpImm (funct3 : BitVec 3) (imm11_5 : BitVec 7) : Option OpTag :=
  match funct3 with
  | 0b000#3 => some .addi
  | 0b001#3 => lookupShiftLeftImm imm11_5
  | 0b010#3 => some .slti
  | 0b011#3 => some .sltiu
  | 0b100#3 => some .xori
  | 0b101#3 => lookupShiftRightImm imm11_5
  | 0b110#3 => some .ori
  | 0b111#3 => some .andi
  | _ => none

/-- Funct3-under-LOAD (30_encoding.md R115). -/
def lookupLoad (funct3 : BitVec 3) : Option OpTag :=
  match funct3 with
  | 0b000#3 => some .lb
  | 0b001#3 => some .lh
  | 0b010#3 => some .lw
  | 0b100#3 => some .lbu
  | 0b101#3 => some .lhu
  | _ => none

/-- Funct3-under-STORE (30_encoding.md R116). -/
def lookupStore (funct3 : BitVec 3) : Option OpTag :=
  match funct3 with
  | 0b000#3 => some .sb
  | 0b001#3 => some .sh
  | 0b010#3 => some .sw
  | _ => none

/-- Funct3-under-BRANCH (30_encoding.md R117). -/
def lookupBranch (funct3 : BitVec 3) : Option OpTag :=
  match funct3 with
  | 0b000#3 => some .beq
  | 0b001#3 => some .bne
  | 0b100#3 => some .blt
  | 0b101#3 => some .bge
  | 0b110#3 => some .bltu
  | 0b111#3 => some .bgeu
  | _ => none

/-- JALR requires funct3 = 000 (30_encoding.md R120). -/
def lookupJalr (funct3 : BitVec 3) : Option OpTag :=
  match funct3 with
  | 0b000#3 => some .jalr
  | _ => none

/-- The result of a funct lookup under a named opcode: no row is UnknownFunct (30_encoding.md R123, R124). -/
def orUnknownFunct (w : Word) : Option OpTag → Dispatched
  | some t => .op (dispatchOutput t w)
  | none => .illegal .unknownFunct

/-- The reason of a word whose opcode is not one of the ten named (30_encoding.md R123, R124). -/
def unnamedOpcode (extra : List (BitVec 7)) (opcode : BitVec 7) : IllegalReason :=
  if opcode ∈ extra then .unimplemented else .unknownOpcode

/-- `Dispatch(w)` (30_encoding.md R124): the opcode first, the funct fields second, each read through the decoder of the
opcode's format (R107). `extra` is EXTRA_OPCODE_TAGS. -/
def dispatch (extra : List (BitVec 7)) (w : Word) : Dispatched :=
  match opcodeOf (opcodeField w) with
  | some .op     => orUnknownFunct w (lookupOp (decodeR w).funct3 (decodeR w).funct7)
  | some .opImm  => orUnknownFunct w (lookupOpImm (decodeI w).funct3 (decodeI w).imm11_5)
  | some .load   => orUnknownFunct w (lookupLoad (decodeI w).funct3)
  | some .store  => orUnknownFunct w (lookupStore (decodeS w).funct3)
  | some .branch => orUnknownFunct w (lookupBranch (decodeB w).funct3)
  | some .jalr   => orUnknownFunct w (lookupJalr (decodeI w).funct3)
  | some .jal    => .op (dispatchOutput .jal w)
  | some .lui    => .op (dispatchOutput .lui w)
  | some .auipc  => .op (dispatchOutput .auipc w)
  | some .system => .illegal .unimplemented
  | none => .illegal (unnamedOpcode extra (opcodeField w))

/-! ### From the mux output to the instruction that runs -/

/-- The encoded field of an I-type or S-type immediate, back from its 32-bit value (30_encoding.md R100, R101). -/
def immField (imm : Word) : BitVec 12 := imm.extractLsb' 0 12

/-- The reassembled 13-bit branch offset, back from its 32-bit value (30_encoding.md R102). -/
def branchField (imm : Word) : BitVec 13 := imm.extractLsb' 0 13

/-- The reassembled 21-bit jump offset, back from its 32-bit value (30_encoding.md R104). -/
def jalField (imm : Word) : BitVec 21 := imm.extractLsb' 0 21

/-- imm[31:12] of a U-type immediate (30_encoding.md R103). -/
def upperField (imm : Word) : BitVec 20 := imm.extractLsb' 12 20

/-- The instruction of a mux output: a behaviour is given only the fields its rule names (30_encoding.md R125). -/
def DispatchOutput.instr (d : DispatchOutput) : Instr :=
  match d.tag with
  | .add => .add d.rd d.rs1 d.rs2
  | .sub => .sub d.rd d.rs1 d.rs2
  | .sll => .sll d.rd d.rs1 d.rs2
  | .slt => .slt d.rd d.rs1 d.rs2
  | .sltu => .sltu d.rd d.rs1 d.rs2
  | .xor => .xor d.rd d.rs1 d.rs2
  | .srl => .srl d.rd d.rs1 d.rs2
  | .sra => .sra d.rd d.rs1 d.rs2
  | .or => .or d.rd d.rs1 d.rs2
  | .and => .and d.rd d.rs1 d.rs2
  | .addi => .addi d.rd d.rs1 (immField d.imm)
  | .slti => .slti d.rd d.rs1 (immField d.imm)
  | .sltiu => .sltiu d.rd d.rs1 (immField d.imm)
  | .xori => .xori d.rd d.rs1 (immField d.imm)
  | .ori => .ori d.rd d.rs1 (immField d.imm)
  | .andi => .andi d.rd d.rs1 (immField d.imm)
  | .slli => .slli d.rd d.rs1 d.shamt
  | .srli => .srli d.rd d.rs1 d.shamt
  | .srai => .srai d.rd d.rs1 d.shamt
  | .lui => .lui d.rd (upperField d.imm)
  | .auipc => .auipc d.rd (upperField d.imm)
  | .jal => .jal d.rd (jalField d.imm)
  | .jalr => .jalr d.rd d.rs1 (immField d.imm)
  | .beq => .beq d.rs1 d.rs2 (branchField d.imm)
  | .bne => .bne d.rs1 d.rs2 (branchField d.imm)
  | .blt => .blt d.rs1 d.rs2 (branchField d.imm)
  | .bge => .bge d.rs1 d.rs2 (branchField d.imm)
  | .bltu => .bltu d.rs1 d.rs2 (branchField d.imm)
  | .bgeu => .bgeu d.rs1 d.rs2 (branchField d.imm)
  | .lb => .lb d.rd d.rs1 (immField d.imm)
  | .lh => .lh d.rd d.rs1 (immField d.imm)
  | .lw => .lw d.rd d.rs1 (immField d.imm)
  | .lbu => .lbu d.rd d.rs1 (immField d.imm)
  | .lhu => .lhu d.rd d.rs1 (immField d.imm)
  | .sb => .sb d.rs2 d.rs1 (immField d.imm)
  | .sh => .sh d.rs2 d.rs1 (immField d.imm)
  | .sw => .sw d.rs2 d.rs1 (immField d.imm)

/-- A word as the machine runs it: an instruction, or the reason it is illegal. -/
inductive Decoded where
  | instr   (i : Instr)
  | illegal (reason : IllegalReason)
  deriving DecidableEq, Repr

/-- The instruction of a word, through the dispatch mux (30_encoding.md R124, R127). -/
def decode (extra : List (BitVec 7)) (w : Word) : Decoded :=
  match dispatch extra w with
  | .op d => .instr d.instr
  | .illegal reason => .illegal reason

/-- The instruction the decoder reads from a row's word, its bits numbered as opcode_table.json numbers them. Every
instruction is one 32-bit word (30_encoding.md R90), and EXTRA_OPCODE_TAGS does not affect whether a word decodes (R111). -/
def decodeTableWord (nbits w : Nat) : Option Instr :=
  match decode [] (BitVec.ofNat 32 (w % 2 ^ nbits)) with
  | .instr i => some i
  | .illegal _ => none

/-! ### The encoder: each format's fields, most significant first (30_encoding.md R94 to R99) -/

def encodeR (funct7 : BitVec 7) (rs2 rs1 : Reg) (funct3 : BitVec 3) (rd : Reg) (opcode : Opcode) : Word :=
  funct7 ++ regBits rs2 ++ regBits rs1 ++ funct3 ++ regBits rd ++ opcode.bits

def encodeI (imm : BitVec 12) (rs1 : Reg) (funct3 : BitVec 3) (rd : Reg) (opcode : Opcode) : Word :=
  imm ++ regBits rs1 ++ funct3 ++ regBits rd ++ opcode.bits

def encodeS (imm : BitVec 12) (rs2 rs1 : Reg) (funct3 : BitVec 3) (opcode : Opcode) : Word :=
  imm.extractLsb' 5 7 ++ regBits rs2 ++ regBits rs1 ++ funct3 ++ imm.extractLsb' 0 5 ++ opcode.bits

def encodeB (offset : BitVec 13) (rs2 rs1 : Reg) (funct3 : BitVec 3) (opcode : Opcode) : Word :=
  offset.extractLsb' 12 1 ++ offset.extractLsb' 5 6 ++ regBits rs2 ++ regBits rs1 ++ funct3 ++
    offset.extractLsb' 1 4 ++ offset.extractLsb' 11 1 ++ opcode.bits

def encodeU (imm : BitVec 20) (rd : Reg) (opcode : Opcode) : Word := imm ++ regBits rd ++ opcode.bits

def encodeJ (offset : BitVec 21) (rd : Reg) (opcode : Opcode) : Word :=
  offset.extractLsb' 20 1 ++ offset.extractLsb' 1 10 ++ offset.extractLsb' 11 1 ++ offset.extractLsb' 12 8 ++
    regBits rd ++ opcode.bits

/-- The word of an instruction. Bit 0 of a branch or JAL offset has no place in the word (assumption log 8). -/
def encode : Instr → Word
  | .add rd rs1 rs2  => encodeR 0b0000000#7 rs2 rs1 0b000#3 rd .op
  | .sub rd rs1 rs2  => encodeR 0b0100000#7 rs2 rs1 0b000#3 rd .op
  | .sll rd rs1 rs2  => encodeR 0b0000000#7 rs2 rs1 0b001#3 rd .op
  | .slt rd rs1 rs2  => encodeR 0b0000000#7 rs2 rs1 0b010#3 rd .op
  | .sltu rd rs1 rs2 => encodeR 0b0000000#7 rs2 rs1 0b011#3 rd .op
  | .xor rd rs1 rs2  => encodeR 0b0000000#7 rs2 rs1 0b100#3 rd .op
  | .srl rd rs1 rs2  => encodeR 0b0000000#7 rs2 rs1 0b101#3 rd .op
  | .sra rd rs1 rs2  => encodeR 0b0100000#7 rs2 rs1 0b101#3 rd .op
  | .or rd rs1 rs2   => encodeR 0b0000000#7 rs2 rs1 0b110#3 rd .op
  | .and rd rs1 rs2  => encodeR 0b0000000#7 rs2 rs1 0b111#3 rd .op
  | .addi rd rs1 imm  => encodeI imm rs1 0b000#3 rd .opImm
  | .slti rd rs1 imm  => encodeI imm rs1 0b010#3 rd .opImm
  | .sltiu rd rs1 imm => encodeI imm rs1 0b011#3 rd .opImm
  | .xori rd rs1 imm  => encodeI imm rs1 0b100#3 rd .opImm
  | .ori rd rs1 imm   => encodeI imm rs1 0b110#3 rd .opImm
  | .andi rd rs1 imm  => encodeI imm rs1 0b111#3 rd .opImm
  | .slli rd rs1 shamt => encodeI (0b0000000#7 ++ shamt) rs1 0b001#3 rd .opImm
  | .srli rd rs1 shamt => encodeI (0b0000000#7 ++ shamt) rs1 0b101#3 rd .opImm
  | .srai rd rs1 shamt => encodeI (0b0100000#7 ++ shamt) rs1 0b101#3 rd .opImm
  | .lui rd imm   => encodeU imm rd .lui
  | .auipc rd imm => encodeU imm rd .auipc
  | .jal rd offset   => encodeJ offset rd .jal
  | .jalr rd rs1 imm => encodeI imm rs1 0b000#3 rd .jalr
  | .beq rs1 rs2 offset  => encodeB offset rs2 rs1 0b000#3 .branch
  | .bne rs1 rs2 offset  => encodeB offset rs2 rs1 0b001#3 .branch
  | .blt rs1 rs2 offset  => encodeB offset rs2 rs1 0b100#3 .branch
  | .bge rs1 rs2 offset  => encodeB offset rs2 rs1 0b101#3 .branch
  | .bltu rs1 rs2 offset => encodeB offset rs2 rs1 0b110#3 .branch
  | .bgeu rs1 rs2 offset => encodeB offset rs2 rs1 0b111#3 .branch
  | .lb rd rs1 imm  => encodeI imm rs1 0b000#3 rd .load
  | .lh rd rs1 imm  => encodeI imm rs1 0b001#3 rd .load
  | .lw rd rs1 imm  => encodeI imm rs1 0b010#3 rd .load
  | .lbu rd rs1 imm => encodeI imm rs1 0b100#3 rd .load
  | .lhu rd rs1 imm => encodeI imm rs1 0b101#3 rd .load
  | .sb rs2 rs1 imm => encodeS imm rs2 rs1 0b000#3 .store
  | .sh rs2 rs1 imm => encodeS imm rs2 rs1 0b001#3 .store
  | .sw rs2 rs1 imm => encodeS imm rs2 rs1 0b010#3 .store

/-! ### The rows of opcode_table.json: a second reading of the encoding, by match and mask -/

/-- The operation tag of an instruction (30_encoding.md R126). -/
def Instr.tag : Instr → OpTag
  | .add _ _ _ => .add
  | .sub _ _ _ => .sub
  | .sll _ _ _ => .sll
  | .slt _ _ _ => .slt
  | .sltu _ _ _ => .sltu
  | .xor _ _ _ => .xor
  | .srl _ _ _ => .srl
  | .sra _ _ _ => .sra
  | .or _ _ _ => .or
  | .and _ _ _ => .and
  | .addi _ _ _ => .addi
  | .slti _ _ _ => .slti
  | .sltiu _ _ _ => .sltiu
  | .xori _ _ _ => .xori
  | .ori _ _ _ => .ori
  | .andi _ _ _ => .andi
  | .slli _ _ _ => .slli
  | .srli _ _ _ => .srli
  | .srai _ _ _ => .srai
  | .lui _ _ => .lui
  | .auipc _ _ => .auipc
  | .jal _ _ => .jal
  | .jalr _ _ _ => .jalr
  | .beq _ _ _ => .beq
  | .bne _ _ _ => .bne
  | .blt _ _ _ => .blt
  | .bge _ _ _ => .bge
  | .bltu _ _ _ => .bltu
  | .bgeu _ _ _ => .bgeu
  | .lb _ _ _ => .lb
  | .lh _ _ _ => .lh
  | .lw _ _ _ => .lw
  | .lbu _ _ _ => .lbu
  | .lhu _ _ _ => .lhu
  | .sb _ _ _ => .sb
  | .sh _ _ _ => .sh
  | .sw _ _ _ => .sw

/-- The "match" of a row of opcode_table.json. -/
def OpTag.matchWord : OpTag → Word
  | .add  => 0x00000033#32
  | .sub  => 0x40000033#32
  | .sll  => 0x00001033#32
  | .slt  => 0x00002033#32
  | .sltu => 0x00003033#32
  | .xor  => 0x00004033#32
  | .srl  => 0x00005033#32
  | .sra  => 0x40005033#32
  | .or   => 0x00006033#32
  | .and  => 0x00007033#32
  | .addi  => 0x00000013#32
  | .slti  => 0x00002013#32
  | .sltiu => 0x00003013#32
  | .xori  => 0x00004013#32
  | .ori   => 0x00006013#32
  | .andi  => 0x00007013#32
  | .slli  => 0x00001013#32
  | .srli  => 0x00005013#32
  | .srai  => 0x40005013#32
  | .lui   => 0x00000037#32
  | .auipc => 0x00000017#32
  | .jal   => 0x0000006F#32
  | .jalr  => 0x00000067#32
  | .beq  => 0x00000063#32
  | .bne  => 0x00001063#32
  | .blt  => 0x00004063#32
  | .bge  => 0x00005063#32
  | .bltu => 0x00006063#32
  | .bgeu => 0x00007063#32
  | .lb  => 0x00000003#32
  | .lh  => 0x00001003#32
  | .lw  => 0x00002003#32
  | .lbu => 0x00004003#32
  | .lhu => 0x00005003#32
  | .sb => 0x00000023#32
  | .sh => 0x00001023#32
  | .sw => 0x00002023#32

/-- The "mask" of a row of opcode_table.json. -/
def OpTag.maskWord : OpTag → Word
  | .add | .sub | .sll | .slt | .sltu | .xor | .srl | .sra | .or | .and => 0xFE00707F#32
  | .addi | .slti | .sltiu | .xori | .ori | .andi => 0x0000707F#32
  | .slli | .srli | .srai => 0xFE00707F#32
  | .lui | .auipc | .jal => 0x0000007F#32
  | .jalr => 0x0000707F#32
  | .beq | .bne | .blt | .bge | .bltu | .bgeu => 0x0000707F#32
  | .lb | .lh | .lw | .lbu | .lhu | .sb | .sh | .sw => 0x0000707F#32

/-- "A word w selects a row when `w & mask = match`" (30_encoding.md, opening paragraph). -/
abbrev OpTag.selects (t : OpTag) (w : Word) : Prop := w &&& t.maskWord = t.matchWord

end Sys2Proof
end

