-- ==== Sys2Proof/Machine/State.lean ====
section
/-! DEFINITION. The state of the block (10_state.md section 1: registers, pc, the two stores, the run state; "Nothing else
is state") beside its open parameters, the fault record (60_exceptions.md R251), and reset (70_reset_and_hazards.md R280). -/
namespace Sys2Proof.Machine

/-- Which access raised a data fault (20_memory.md R67, R68). -/
inductive AccessKind where
  | load | store
  deriving DecidableEq, Repr

/-- The faults of the table in 60_exceptions.md R251; `FaultCode.number` (Ops) gives their code numbers. -/
inductive FaultCode where
  | instructionAddressMisaligned
  | fetchOutOfRange
  | illegalInstruction
  | misalignedLoad
  | loadOutOfRange
  | misalignedStore
  | storeOutOfRange
  deriving DecidableEq, Repr

/-- The fault record `{code, reason, pc, inst, addr}` (60_exceptions.md R251). -/
structure FaultRecord where
  code   : FaultCode
  /-- the illegal-instruction sub-kind, or none -/
  reason : Option IllegalReason
  /-- the address of the faulting instruction -/
  pc     : Word
  /-- its word; none for FetchOutOfRange -/
  inst   : Option Word
  /-- the target, EA or pc; none for IllegalInstruction -/
  addr   : Option Word
  deriving DecidableEq, Repr

/-- The run state (10_state.md R39). -/
inductive RunState where
  | running
  | halted (record : FaultRecord)
  deriving DecidableEq, Repr

/-- A store's contents: (byte address, byte) pairs, addresses strictly rising, no byte that an unlisted address reads as
(`Memory.wf` in Ops; assumption log 1). -/
abbrev Memory := List Host.Cell

/-- The machine state (10_state.md section 1). x0 has no storage (R32): entry k of `regs` is x(k+1). -/
structure State where
  /-- the open parameters; no step writes them (assumption log 2) -/
  cfg  : Config
  /-- x1..x31 (10_state.md R30) -/
  regs : Vector Word 31
  /-- the program counter, a byte address (10_state.md R36) -/
  pc   : Word
  /-- the instruction store (20_memory.md R60) -/
  imem : Memory
  /-- the data store (20_memory.md R61) -/
  dmem : Memory
  /-- the run state (10_state.md R39) -/
  run  : RunState
  deriving DecidableEq, Repr

/-- Why a step does not exist. -/
inductive Fault where
  /-- Raised by `step` alone, in a state whose run field is Halted: "no step is taken" (10_state.md R39, R258). Safe: the
  machine stops where the hardware stops (assumption log 4). The fault that halted the block is in the record; the step
  that raised it was a next state (assumption log 3). -/
  | halted (record : FaultRecord)
  deriving DecidableEq, Repr

/-- Why an instruction has no meaning in the model. -/
inductive Refusal where
  /-- Raised by an arm of `exec` for an instruction not modelled yet; no arm does, every instruction has its meaning. Safe. -/
  | notModelled (mnemonic : String)
  deriving DecidableEq, Repr

/-- The state right after reset, for any values of the open parameters (70_reset_and_hazards.md R280). -/
def State.resetOf (cfg : Config) : State :=
  { cfg := cfg, regs := Vector.replicate 31 0, pc := 0, imem := [], dmem := [], run := .running }

/-- The state right after reset (70_reset_and_hazards.md R280); its store sizes are assumption log 2's choice. -/
def State.reset : State := State.resetOf Config.atReset

end Sys2Proof.Machine
end

