-- ==== Sys2Proof/Machine/Ops.lean ====
section
/-! DEFINITION. The named operations: bytes and words of a store, the word port (20_memory.md R65), MemRead and MemWrite
(R69, R70), fetch (R64), the register file (10_state.md R31, R32), raising a fault (60_exceptions.md R251, R256) and
committing an instruction's effect (10_state.md R41). There is no return from a fault (R258, R263), so no operation for it. -/
namespace Sys2Proof.Machine

/-! ### Bytes and words of a store -/

/-- What a byte that nothing has written reads as: every word of both stores is 0 at reset (70_reset_and_hazards.md R280). -/
def Memory.unlisted (_address : Nat) : Byte := 0

/-- The canonical form of a store: addresses strictly rising, no entry equal to what an unlisted address reads as. -/
abbrev Memory.wf (m : Memory) : Prop :=
  m.Pairwise (fun c d => c.1 < d.1) ∧ ∀ c ∈ m, c.2 ≠ Memory.unlisted c.1

/-- Every listed byte lies in a store of `words` words (20_memory.md R74). -/
abbrev Memory.within (m : Memory) (words : Nat) : Prop := ∀ c ∈ m, c.1 < 4 * words

/-- The byte at a byte address. -/
def Memory.readByte : Memory → Nat → Byte
  | [], a => Memory.unlisted a
  | c :: m, a => if c.1 = a then c.2 else Memory.readByte m a

/-- A store with nothing listed at one address. -/
def Memory.erase (m : Memory) (a : Nat) : Memory := m.filter (fun c => c.1 != a)

/-- A cell put at its place in the rising order. -/
def Memory.insert (a : Nat) (b : Byte) : Memory → Memory
  | [] => [(a, b)]
  | c :: m => if a < c.1 then (a, b) :: c :: m else c :: Memory.insert a b m

/-- One byte written, the canonical form kept. -/
def Memory.writeByte (m : Memory) (a : Nat) (b : Byte) : Memory :=
  if b = Memory.unlisted a then m.erase a else Memory.insert a b (m.erase a)

/-- Word `i` of a store: the byte at `4i + k` is bits [8k+7:8k] (20_memory.md R66, little-endian, decision D2). -/
def Memory.word (m : Memory) (i : Nat) : Word :=
  m.readByte (4 * i + 3) ++ m.readByte (4 * i + 2) ++ m.readByte (4 * i + 1) ++ m.readByte (4 * i)

/-- One lane of a port write (20_memory.md R65). -/
def Memory.writeLane (m : Memory) (i : Nat) (be : BitVec 4) (wdata : Word) (lane : Nat) : Memory :=
  if be.getLsbD lane then m.writeByte (4 * i + lane) (wdata.extractLsb' (8 * lane) 8) else m

/-- A port write: word index, byte-lane enables, data already in its lanes (20_memory.md R65). -/
def Memory.writeLanes (m : Memory) (i : Nat) (be : BitVec 4) (wdata : Word) : Memory :=
  (((m.writeLane i be wdata 0).writeLane i be wdata 1).writeLane i be wdata 2).writeLane i be wdata 3

/-- A whole word written, as the loader does (70_reset_and_hazards.md R284). -/
def Memory.writeWord (m : Memory) (i : Nat) (v : Word) : Memory := m.writeLanes i 0b1111#4 v

/-! ### Addresses -/

/-- The word index `a[31:2]` of a byte address (20_memory.md R63). -/
def wordIndex (a : Word) : Nat := (a.extractLsb' 2 30).toNat

/-- The byte lane `a[1:0]` of a byte address (20_memory.md R63). -/
def byteLane (a : Word) : Nat := (a.extractLsb' 0 2).toNat

/-- The width of a data access (20_memory.md R73). -/
inductive Width where
  | byte | half | word
  deriving DecidableEq, Repr

/-- How many bytes a data access moves (20_memory.md R73). -/
def Width.bytes : Width → Nat
  | .byte => 1
  | .half => 2
  | .word => 4

/-! ### Faults -/

/-- What an instruction raises (60_exceptions.md R251 to R255), with its information. -/
inductive Cause where
  | instructionAddressMisaligned (target : Word)
  | fetchOutOfRange (pc : Word)
  | illegalInstruction (reason : IllegalReason)
  | misalignedAccess (kind : AccessKind) (ea : Word)
  | addressOutOfRange (kind : AccessKind) (ea : Word)
  deriving DecidableEq, Repr

/-- The code number of a fault (60_exceptions.md R251). -/
def FaultCode.number : FaultCode → Nat
  | .instructionAddressMisaligned => 0
  | .fetchOutOfRange => 1
  | .illegalInstruction => 2
  | .misalignedLoad => 4
  | .loadOutOfRange => 5
  | .misalignedStore => 6
  | .storeOutOfRange => 7

/-- The code of a cause (60_exceptions.md R251). -/
def Cause.code : Cause → FaultCode
  | .instructionAddressMisaligned _ => .instructionAddressMisaligned
  | .fetchOutOfRange _ => .fetchOutOfRange
  | .illegalInstruction _ => .illegalInstruction
  | .misalignedAccess .load _ => .misalignedLoad
  | .misalignedAccess .store _ => .misalignedStore
  | .addressOutOfRange .load _ => .loadOutOfRange
  | .addressOutOfRange .store _ => .storeOutOfRange

/-- The sub-kind of a cause, for IllegalInstruction only (60_exceptions.md R251). -/
def Cause.reason : Cause → Option IllegalReason
  | .illegalInstruction reason => some reason
  | .instructionAddressMisaligned _ => none
  | .fetchOutOfRange _ => none
  | .misalignedAccess _ _ => none
  | .addressOutOfRange _ _ => none

/-- The faulting address of a cause: target, pc or EA, none for IllegalInstruction (60_exceptions.md R251). -/
def Cause.addr : Cause → Option Word
  | .instructionAddressMisaligned target => some target
  | .fetchOutOfRange pc => some pc
  | .illegalInstruction _ => none
  | .misalignedAccess _ ea => some ea
  | .addressOutOfRange _ ea => some ea

/-- The record of a fault raised by the instruction at `pc` whose word is `inst` (60_exceptions.md R251). -/
def faultRecord (c : Cause) (pc : Word) (inst : Option Word) : FaultRecord :=
  { code := c.code, reason := c.reason, pc := pc, inst := inst, addr := c.addr }

/-- TAKING A FAULT (60_exceptions.md R256; 00_scope.md R12): nothing of the instruction commits, pc stays, and the run
state becomes Halted with the record. -/
def takeFault (c : Cause) (inst : Option Word) (s : State) : State :=
  { s with run := .halted (faultRecord c s.pc inst) }

/-! ### The register file -/

/-- `x[i]`: register 0 reads 0 (10_state.md R31). -/
def State.x (s : State) (i : Reg) : Word := if i = 0 then 0 else s.regs[i.val - 1]

/-- `x[i] <- v`: a write to register 0 is discarded (10_state.md R32). -/
def State.setX (s : State) (i : Reg) (v : Word) : State :=
  if i = 0 then s else { s with regs := s.regs.set (i.val - 1) v }

/-! ### Fetch and data access -/

/-- `IFetch(a)` at the pc: the whole word, or none when the word index is out of range (20_memory.md R64). -/
def ifetch (s : State) : Option Word :=
  if wordIndex s.pc < s.cfg.imemWords then some (s.imem.word (wordIndex s.pc)) else none

/-- The checks of a data access, alignment before range (20_memory.md R67, R68; 60_exceptions.md R259). -/
def checkAccess (kind : AccessKind) (width : Width) (ea : Word) (s : State) : Option Cause :=
  if ea.toNat % width.bytes ≠ 0 then some (.misalignedAccess kind ea)
  else if wordIndex ea < s.cfg.dmemWords then none
  else some (.addressOutOfRange kind ea)

/-- The value of `MemRead(a, n)` once its checks pass: `word[8(k+n)-1 : 8k]`, zeros above (20_memory.md R69). -/
def memReadValue (m : Memory) (ea : Word) (width : Width) : Word :=
  zext (8 * width.bytes) (m.word (wordIndex ea) >>> (8 * byteLane ea))

/-- The byte-lane enables of `MemWrite(a, n, v)`: `((1 << n) - 1) << k` (20_memory.md R70). -/
def laneEnables (ea : Word) (width : Width) : BitVec 4 := ((1#4 <<< width.bytes) - 1#4) <<< byteLane ea

/-- `MemWrite(a, n, v)` once its checks pass (20_memory.md R70). -/
def memWriteValue (m : Memory) (ea : Word) (width : Width) (v : Word) : Memory :=
  m.writeLanes (wordIndex ea) (laneEnables ea width) (v <<< (8 * byteLane ea))

/-! ### The effect of an instruction, and its commit -/

/-- A store's part of an effect: address, width, value (10_state.md R41). -/
structure MemWrite where
  ea    : Word
  width : Width
  value : Word
  deriving DecidableEq, Repr

/-- What a behaviour returns: `e` of 10_state.md R41. -/
structure Effect where
  rdWrite  : Option (Reg × Word)
  memWrite : Option MemWrite
  redirect : Option Word
  deriving DecidableEq, Repr

/-- A behaviour's result: an effect, or a raise (10_state.md R41). -/
inductive Behaviour where
  | done  (e : Effect)
  | raise (c : Cause)
  deriving DecidableEq, Repr

/-- The effect of an instruction that only writes rd. -/
def Effect.writeRd (rd : Reg) (v : Word) : Effect := { rdWrite := some (rd, v), memWrite := none, redirect := none }

/-- The register write of an effect (10_state.md R41). -/
def State.commitRd (s : State) : Option (Reg × Word) → State
  | some (i, v) => s.setX i v
  | none => s

/-- The memory write of an effect (10_state.md R41). -/
def State.commitMem (s : State) : Option MemWrite → State
  | some w => { s with dmem := memWriteValue s.dmem w.ea w.width w.value }
  | none => s

/-- `commit e`: the register write, the memory write, and pc to the redirect or to pc + 4 (10_state.md R37, R41). -/
def State.commit (s : State) (e : Effect) : State :=
  { (s.commitRd e.rdWrite).commitMem e.memWrite with pc := e.redirect.getD (s.pc + 4) }

/-- The end of an instruction: commit its effect, or take the fault it raised. The record's word is the instruction's
encoding, which is the word fetched (assumption log 6). -/
def finish (i : Instr) (s : State) : Behaviour → Host.Outcome State Fault Refusal
  | .done e => .next (s.commit e)
  | .raise c => .next (takeFault c (some (encode i)) s)

/-! ### Placing a program -/

/-- The instruction word at the pc set to `w`, the block running, and the instruction store large enough to hold it
(assumption log 10). -/
def State.placeWord (s : State) (w : Word) : State :=
  { s with
    cfg := { s.cfg with imemWords := max s.cfg.imemWords (wordIndex s.pc + 1) }
    imem := s.imem.writeWord (wordIndex s.pc) w
    run := .running }

end Sys2Proof.Machine
end

