-- ==== Sys2Proof/Machine/Flags.lean ====
section
/-! DEFINITION. The block has no flags and no condition codes (10_state.md R42; 40_integer_computational.md R145): nothing
here is stored. What stands in their place: the branch comparator (41_control_transfer.md R195) and the 0 or 1 that a
comparison writes to rd (40_integer_computational.md R140). -/
namespace Sys2Proof.Machine

/-- The conditions of the branch comparator (41_control_transfer.md R195). -/
inductive Cond where
  | eq | ne | lt | ge | ltu | geu
  deriving DecidableEq, Repr

/-- `cmp(cond, a, b)` (41_control_transfer.md R195). -/
def cmp : Cond → Word → Word → Bool
  | .eq, a, b => a == b
  | .ne, a, b => a != b
  | .lt, a, b => a.slt b
  | .ge, a, b => !a.slt b
  | .ltu, a, b => a.ult b
  | .geu, a, b => !a.ult b

/-- A comparison's result as bits32: 1 or 0 (40_integer_computational.md R140). -/
def boolWord (b : Bool) : Word := if b then 1 else 0

end Sys2Proof.Machine
end

