-- ==== Sys2Proof/Machine/Alu.lean ====
section
/-! DEFINITION. The ALU, a combinational function of two operands (40_integer_computational.md R140, R141, R144). -/
namespace Sys2Proof.Machine

/-- The ten operations of the ALU (40_integer_computational.md R140). -/
inductive AluOp where
  | add | sub | sll | slt | sltu | xor | srl | sra | or | and
  deriving DecidableEq, Repr

/-- Every shift uses only the low 5 bits of its amount operand (40_integer_computational.md R141). -/
def shiftAmount (b : Word) : Nat := (b.extractLsb' 0 5).toNat

/-- `alu(op, a, b)` (40_integer_computational.md R140): results wrap modulo 2^32. -/
def alu : AluOp → Word → Word → Word
  | .add, a, b => a + b
  | .sub, a, b => a - b
  | .sll, a, b => a <<< shiftAmount b
  | .slt, a, b => boolWord (a.slt b)
  | .sltu, a, b => boolWord (a.ult b)
  | .xor, a, b => a ^^^ b
  | .srl, a, b => a >>> shiftAmount b
  | .sra, a, b => a.sshiftRight (shiftAmount b)
  | .or, a, b => a ||| b
  | .and, a, b => a &&& b

end Sys2Proof.Machine
end

