-- ==== Sys2Proof/Machine/Operands.lean ====
section
/-! DEFINITION. Every operand form: the immediates as 32-bit operands (30_encoding.md R100 to R105), the effective address
(42_loads_stores.md R220), the targets and the link of control transfers (41_control_transfer.md R190 to R196), and the
widening of load data (40_integer_computational.md R143). -/
namespace Sys2Proof.Machine

/-- `sext_12(imm)`: the I-type and S-type immediate (30_encoding.md R100, R101). -/
def immOperand (imm : BitVec 12) : Word := sext 12 imm

/-- `zext_5(shamt)`: the second operand of a shift-immediate (30_encoding.md R105, R108). -/
def shamtOperand (shamt : BitVec 5) : Word := zext 5 shamt

/-- `{imm[31:12], 0x000}`: the U-type immediate (30_encoding.md R103). -/
def upperOperand (imm : BitVec 20) : Word := imm ++ 0#12

/-- `EA = x[rs1] + sext_12(imm)`, modulo 2^32 (42_loads_stores.md R220; 20_memory.md R72). -/
def effectiveAddress (s : State) (rs1 : Reg) (imm : BitVec 12) : Word := s.x rs1 + sext 12 imm

/-- `t = pc + immB` (41_control_transfer.md R196). -/
def branchTarget (s : State) (offset : BitVec 13) : Word := s.pc + sext 13 offset

/-- `t = pc + immJ` (41_control_transfer.md R192). -/
def jalTarget (s : State) (offset : BitVec 21) : Word := s.pc + sext 21 offset

/-- `t = (x[rs1] + sext_12(imm)) & 0xFFFF_FFFE` (41_control_transfer.md R193). -/
def jalrTarget (s : State) (rs1 : Reg) (imm : BitVec 12) : Word := (s.x rs1 + sext 12 imm) &&& 0xFFFFFFFE#32

/-- The link value `pc + 4` (41_control_transfer.md R194). -/
def linkValue (s : State) : Word := s.pc + 4

/-- How a load widens its n*8-bit value (40_integer_computational.md R143; 42_loads_stores.md R222 to R226). -/
inductive LoadForm where
  | lb | lh | lw | lbu | lhu
  deriving DecidableEq, Repr

def LoadForm.width : LoadForm → Width
  | .lb => .byte
  | .lh => .half
  | .lw => .word
  | .lbu => .byte
  | .lhu => .half

def LoadForm.widen : LoadForm → Word → Word
  | .lb, v => sext 8 v
  | .lh, v => sext 16 v
  | .lw, v => v
  | .lbu, v => zext 8 v
  | .lhu, v => zext 16 v

end Sys2Proof.Machine
end

