-- ==== Sys2Proof/Machine/Control.lean ====
section
/-! DEFINITION. Jumps and branches (41_control_transfer.md R190 to R205). -/
namespace Sys2Proof.Machine

/-- A control transfer to `target`: a target that is not a multiple of 4 raises InstructionAddressMisaligned at the jump or
branch, and then neither rd nor pc is written (41_control_transfer.md R190); otherwise it redirects (R191). -/
def transfer (target : Word) (rdWrite : Option (Reg × Word)) : Behaviour :=
  if target.extractLsb' 0 2 = 0#2 then .done { rdWrite := rdWrite, memWrite := none, redirect := some target }
  else .raise (.instructionAddressMisaligned target)

/-- A branch: only a taken branch checks its target (41_control_transfer.md R190, R196). -/
def branch (taken : Bool) (target : Word) : Behaviour :=
  if taken then transfer target none else .done { rdWrite := none, memWrite := none, redirect := none }

/-- R192 -/
def execJal (rd : Reg) (offset : BitVec 21) (s : State) : Host.Outcome State Fault Refusal :=
  finish (.jal rd offset) s (transfer (jalTarget s offset) (some (rd, linkValue s)))

/-- R193 -/
def execJalr (rd rs1 : Reg) (imm : BitVec 12) (s : State) : Host.Outcome State Fault Refusal :=
  finish (.jalr rd rs1 imm) s (transfer (jalrTarget s rs1 imm) (some (rd, linkValue s)))

/-- R200 -/
def execBeq (rs1 rs2 : Reg) (offset : BitVec 13) (s : State) : Host.Outcome State Fault Refusal :=
  finish (.beq rs1 rs2 offset) s (branch (cmp .eq (s.x rs1) (s.x rs2)) (branchTarget s offset))

/-- R201 -/
def execBne (rs1 rs2 : Reg) (offset : BitVec 13) (s : State) : Host.Outcome State Fault Refusal :=
  finish (.bne rs1 rs2 offset) s (branch (cmp .ne (s.x rs1) (s.x rs2)) (branchTarget s offset))

/-- R202 -/
def execBlt (rs1 rs2 : Reg) (offset : BitVec 13) (s : State) : Host.Outcome State Fault Refusal :=
  finish (.blt rs1 rs2 offset) s (branch (cmp .lt (s.x rs1) (s.x rs2)) (branchTarget s offset))

/-- R203 -/
def execBge (rs1 rs2 : Reg) (offset : BitVec 13) (s : State) : Host.Outcome State Fault Refusal :=
  finish (.bge rs1 rs2 offset) s (branch (cmp .ge (s.x rs1) (s.x rs2)) (branchTarget s offset))

/-- R204 -/
def execBltu (rs1 rs2 : Reg) (offset : BitVec 13) (s : State) : Host.Outcome State Fault Refusal :=
  finish (.bltu rs1 rs2 offset) s (branch (cmp .ltu (s.x rs1) (s.x rs2)) (branchTarget s offset))

/-- R205 -/
def execBgeu (rs1 rs2 : Reg) (offset : BitVec 13) (s : State) : Host.Outcome State Fault Refusal :=
  finish (.bgeu rs1 rs2 offset) s (branch (cmp .geu (s.x rs1) (s.x rs2)) (branchTarget s offset))

end Sys2Proof.Machine
end

