-- ==== Sys2Proof/Machine/Integer.lean ====
section
/-! DEFINITION. The integer computational instructions (40_integer_computational.md R150 to R171). None raises anything of
its own, none touches memory, and every one ends with `pc <- pc + 4`. -/
namespace Sys2Proof.Machine

/-- An ALU result written to rd (40_integer_computational.md R140, R142). -/
def aluBehaviour (op : AluOp) (rd : Reg) (a b : Word) : Behaviour := .done (Effect.writeRd rd (alu op a b))

/-! ### Register-register (opcode OP) -/

/-- R150 -/
def execAdd (rd rs1 rs2 : Reg) (s : State) : Host.Outcome State Fault Refusal :=
  finish (.add rd rs1 rs2) s (aluBehaviour .add rd (s.x rs1) (s.x rs2))

/-- R151 -/
def execSub (rd rs1 rs2 : Reg) (s : State) : Host.Outcome State Fault Refusal :=
  finish (.sub rd rs1 rs2) s (aluBehaviour .sub rd (s.x rs1) (s.x rs2))

/-- R152 -/
def execSll (rd rs1 rs2 : Reg) (s : State) : Host.Outcome State Fault Refusal :=
  finish (.sll rd rs1 rs2) s (aluBehaviour .sll rd (s.x rs1) (s.x rs2))

/-- R153 -/
def execSlt (rd rs1 rs2 : Reg) (s : State) : Host.Outcome State Fault Refusal :=
  finish (.slt rd rs1 rs2) s (aluBehaviour .slt rd (s.x rs1) (s.x rs2))

/-- R154 -/
def execSltu (rd rs1 rs2 : Reg) (s : State) : Host.Outcome State Fault Refusal :=
  finish (.sltu rd rs1 rs2) s (aluBehaviour .sltu rd (s.x rs1) (s.x rs2))

/-- R155 -/
def execXor (rd rs1 rs2 : Reg) (s : State) : Host.Outcome State Fault Refusal :=
  finish (.xor rd rs1 rs2) s (aluBehaviour .xor rd (s.x rs1) (s.x rs2))

/-- R156 -/
def execSrl (rd rs1 rs2 : Reg) (s : State) : Host.Outcome State Fault Refusal :=
  finish (.srl rd rs1 rs2) s (aluBehaviour .srl rd (s.x rs1) (s.x rs2))

/-- R157 -/
def execSra (rd rs1 rs2 : Reg) (s : State) : Host.Outcome State Fault Refusal :=
  finish (.sra rd rs1 rs2) s (aluBehaviour .sra rd (s.x rs1) (s.x rs2))

/-- R158 -/
def execOr (rd rs1 rs2 : Reg) (s : State) : Host.Outcome State Fault Refusal :=
  finish (.or rd rs1 rs2) s (aluBehaviour .or rd (s.x rs1) (s.x rs2))

/-- R159 -/
def execAnd (rd rs1 rs2 : Reg) (s : State) : Host.Outcome State Fault Refusal :=
  finish (.and rd rs1 rs2) s (aluBehaviour .and rd (s.x rs1) (s.x rs2))

/-! ### Register-immediate (opcode OP_IMM) -/

/-- R160 -/
def execAddi (rd rs1 : Reg) (imm : BitVec 12) (s : State) : Host.Outcome State Fault Refusal :=
  finish (.addi rd rs1 imm) s (aluBehaviour .add rd (s.x rs1) (immOperand imm))

/-- R161 -/
def execSlti (rd rs1 : Reg) (imm : BitVec 12) (s : State) : Host.Outcome State Fault Refusal :=
  finish (.slti rd rs1 imm) s (aluBehaviour .slt rd (s.x rs1) (immOperand imm))

/-- R162: the immediate is sign-extended, then compared unsigned (90_conflicts.md C3). -/
def execSltiu (rd rs1 : Reg) (imm : BitVec 12) (s : State) : Host.Outcome State Fault Refusal :=
  finish (.sltiu rd rs1 imm) s (aluBehaviour .sltu rd (s.x rs1) (immOperand imm))

/-- R163 -/
def execXori (rd rs1 : Reg) (imm : BitVec 12) (s : State) : Host.Outcome State Fault Refusal :=
  finish (.xori rd rs1 imm) s (aluBehaviour .xor rd (s.x rs1) (immOperand imm))

/-- R164 -/
def execOri (rd rs1 : Reg) (imm : BitVec 12) (s : State) : Host.Outcome State Fault Refusal :=
  finish (.ori rd rs1 imm) s (aluBehaviour .or rd (s.x rs1) (immOperand imm))

/-- R165 -/
def execAndi (rd rs1 : Reg) (imm : BitVec 12) (s : State) : Host.Outcome State Fault Refusal :=
  finish (.andi rd rs1 imm) s (aluBehaviour .and rd (s.x rs1) (immOperand imm))

/-- R166 -/
def execSlli (rd rs1 : Reg) (shamt : BitVec 5) (s : State) : Host.Outcome State Fault Refusal :=
  finish (.slli rd rs1 shamt) s (aluBehaviour .sll rd (s.x rs1) (shamtOperand shamt))

/-- R167 -/
def execSrli (rd rs1 : Reg) (shamt : BitVec 5) (s : State) : Host.Outcome State Fault Refusal :=
  finish (.srli rd rs1 shamt) s (aluBehaviour .srl rd (s.x rs1) (shamtOperand shamt))

/-- R168 -/
def execSrai (rd rs1 : Reg) (shamt : BitVec 5) (s : State) : Host.Outcome State Fault Refusal :=
  finish (.srai rd rs1 shamt) s (aluBehaviour .sra rd (s.x rs1) (shamtOperand shamt))

/-! ### Upper immediate -/

/-- R170: `alu(ADD, 0, immU)`. -/
def execLui (rd : Reg) (imm : BitVec 20) (s : State) : Host.Outcome State Fault Refusal :=
  finish (.lui rd imm) s (aluBehaviour .add rd 0 (upperOperand imm))

/-- R171: pc is the address of this instruction. -/
def execAuipc (rd : Reg) (imm : BitVec 20) (s : State) : Host.Outcome State Fault Refusal :=
  finish (.auipc rd imm) s (aluBehaviour .add rd s.pc (upperOperand imm))

end Sys2Proof.Machine
end

