-- ==== Sys2Proof/Machine/LoadStore.lean ====
section
/-! DEFINITION. Loads and stores (42_loads_stores.md R220 to R232). -/
namespace Sys2Proof.Machine

/-- A load: MemRead's checks, then its value widened to rd (42_loads_stores.md R221). The access is made for rd = x0 too
(R227). -/
def loadBehaviour (form : LoadForm) (rd : Reg) (ea : Word) (s : State) : Behaviour :=
  match checkAccess .load form.width ea s with
  | some c => .raise c
  | none => .done (Effect.writeRd rd (form.widen (memReadValue s.dmem ea form.width)))

/-- A store: MemWrite's checks, then its write, committed with the effect (42_loads_stores.md R229). -/
def storeBehaviour (width : Width) (v ea : Word) (s : State) : Behaviour :=
  match checkAccess .store width ea s with
  | some c => .raise c
  | none => .done { rdWrite := none, memWrite := some { ea := ea, width := width, value := v }, redirect := none }

/-- R222 -/
def execLb (rd rs1 : Reg) (imm : BitVec 12) (s : State) : Host.Outcome State Fault Refusal :=
  finish (.lb rd rs1 imm) s (loadBehaviour .lb rd (effectiveAddress s rs1 imm) s)

/-- R223 -/
def execLh (rd rs1 : Reg) (imm : BitVec 12) (s : State) : Host.Outcome State Fault Refusal :=
  finish (.lh rd rs1 imm) s (loadBehaviour .lh rd (effectiveAddress s rs1 imm) s)

/-- R224 -/
def execLw (rd rs1 : Reg) (imm : BitVec 12) (s : State) : Host.Outcome State Fault Refusal :=
  finish (.lw rd rs1 imm) s (loadBehaviour .lw rd (effectiveAddress s rs1 imm) s)

/-- R225 -/
def execLbu (rd rs1 : Reg) (imm : BitVec 12) (s : State) : Host.Outcome State Fault Refusal :=
  finish (.lbu rd rs1 imm) s (loadBehaviour .lbu rd (effectiveAddress s rs1 imm) s)

/-- R226 -/
def execLhu (rd rs1 : Reg) (imm : BitVec 12) (s : State) : Host.Outcome State Fault Refusal :=
  finish (.lhu rd rs1 imm) s (loadBehaviour .lhu rd (effectiveAddress s rs1 imm) s)

/-- R230 -/
def execSb (rs2 rs1 : Reg) (imm : BitVec 12) (s : State) : Host.Outcome State Fault Refusal :=
  finish (.sb rs2 rs1 imm) s (storeBehaviour .byte (s.x rs2) (effectiveAddress s rs1 imm) s)

/-- R231 -/
def execSh (rs2 rs1 : Reg) (imm : BitVec 12) (s : State) : Host.Outcome State Fault Refusal :=
  finish (.sh rs2 rs1 imm) s (storeBehaviour .half (s.x rs2) (effectiveAddress s rs1 imm) s)

/-- R232 -/
def execSw (rs2 rs1 : Reg) (imm : BitVec 12) (s : State) : Host.Outcome State Fault Refusal :=
  finish (.sw rs2 rs1 imm) s (storeBehaviour .word (s.x rs2) (effectiveAddress s rs1 imm) s)

end Sys2Proof.Machine
end

