-- ==== Sys2Proof/Machine/Step.lean ====
section
/-! DEFINITION. One step (10_state.md R40, R41): fetch, decode and dispatch, execute, commit and advance, in one transition. -/
namespace Sys2Proof.Machine

/-- One step. A halted block takes none (10_state.md R39; assumption log 4). Fetch may raise FetchOutOfRange (20_memory.md
R64), decode IllegalInstruction (60_exceptions.md R252); the rest is the instruction's own meaning. -/
def step (s : State) : Host.Outcome State Fault Refusal :=
  match s.run with
  | .halted record => .fault (.halted record)
  | .running =>
    match ifetch s with
    | none => .next (takeFault (.fetchOutOfRange s.pc) none s)
    | some w =>
      match decode s.cfg.extraOpcodeTags w with
      | .illegal reason => .next (takeFault (.illegalInstruction reason) (some w) s)
      | .instr i => exec i s

/-- `s` with a row's word placed where the next step fetches (assumption log 10). -/
def State.withFetchWord (s : State) (nbits w : Nat) : State := s.placeWord (BitVec.ofNat 32 (w % 2 ^ nbits))

end Sys2Proof.Machine
end

