-- ==== Sys2Proof/Machine/HostPort.lean ====
section
/-! DEFINITION. What the host can do to the block (70_reset_and_hazards.md R284, R285; 10_state.md R45): load before the first
step, inspect between steps or after a halt, stop after any step. -/
namespace Sys2Proof.Machine

/-- Words of an image written to consecutive words of a store from word `k`. -/
def Memory.writeWords (m : Memory) (k : Nat) : List Word → Memory
  | [] => m
  | w :: image => Memory.writeWords (m.writeWord k w) (k + 1) image

/-- The loader: word k of the image goes to imem[k] (70_reset_and_hazards.md R284). That the image has at most IMEM_WORDS
words is the host's duty, not checked here (assumption log 11). -/
def State.loadImage (s : State) (image : List Word) : State := { s with imem := s.imem.writeWords 0 image }

/-! ### Inspection (10_state.md R45; 60_exceptions.md R257, R270) -/

def State.hostPc (s : State) : Word := s.pc
def State.hostReg (s : State) (i : Reg) : Word := s.x i

/-- Data-store word `i`, for `i` in 0..DMEM_WORDS-1. The spec names no other word: that the accessor answers none past the end
is the model's choice (assumption log 12). -/
def State.hostDmemWord (s : State) (i : Nat) : Option Word := if i < s.cfg.dmemWords then some (s.dmem.word i) else none

/-- Decision D22: instruction-store words 0..IMEM_WORDS-1 can be read too. None past the end is the model's choice
(assumption log 12). -/
def State.hostImemWord (s : State) (i : Nat) : Option Word := if i < s.cfg.imemWords then some (s.imem.word i) else none

def State.hostRunState (s : State) : RunState := s.run
/-- The full fault record of a halted block (60_exceptions.md R257). -/
def State.hostFault (s : State) : Option FaultRecord :=
  match s.run with
  | .halted record => some record
  | .running => none

/-- The host's loop with the bound MAX_STEPS (70_reset_and_hazards.md R285, R289; decision D17): it ends in a halted block, or
after `maxSteps` steps with the block left Running. -/
def State.hostRun : Nat → State → State
  | 0, s => s
  | k + 1, s =>
    match step s with
    | .next t => State.hostRun k t
    | .fault _ => s
    | .refused _ => s

end Sys2Proof.Machine
end

