-- ==== Sys2Proof/Safety.lean ====
section
/-! DEFINITION. The terms claims use: the invariant of the block, reachable states, a run with no fault, what an
instruction reads and writes (10_state.md R33, R37), how a word reads as an instruction, and the frames that the
per-instruction statements share. -/
namespace Sys2Proof.Machine

/-! ### The invariant -/

/-- The parameters are ones the hardware can have (00_scope.md R6; 30_encoding.md R111): store sizes 1..2^30, extra tags
disjoint from the ten named opcodes. -/
abbrev ConfigOk (c : Config) : Prop :=
  (1 ≤ c.imemWords ∧ c.imemWords ≤ 2 ^ 30) ∧ (1 ≤ c.dmemWords ∧ c.dmemWords ≤ 2 ^ 30) ∧
    ∀ b ∈ c.extraOpcodeTags, opcodeOf b = none

/-- What every state of a run satisfies: legal parameters, pc a multiple of 4 (10_state.md R38), and each store in its
canonical form and inside its own size (20_memory.md R74). -/
abbrev Inv (s : State) : Prop :=
  ConfigOk s.cfg ∧ s.pc.toNat % 4 = 0 ∧ (s.imem.wf ∧ s.imem.within s.cfg.imemWords) ∧
    (s.dmem.wf ∧ s.dmem.within s.cfg.dmemWords)

/-! ### Runs -/

/-- A state that a run can show: reset with legal parameters, an image that fits, then steps (70_reset_and_hazards.md R284,
R285). -/
inductive Reachable : State → Prop where
  | start (cfg : Config) (image : List Word) (ok : ConfigOk cfg) (fits : image.length ≤ cfg.imemWords) :
      Reachable ((State.resetOf cfg).loadImage image)
  | step (s t : State) (reached : Reachable s) (next : Machine.step s = .next t) : Reachable t

/-- A safe run: `k` steps from `s`, none of which raises a fault (60_exceptions.md R250; 70_reset_and_hazards.md R289). -/
def SafeFor (k : Nat) (s : State) : Prop := ∀ j ≤ k, (State.hostRun j s).run = .running

/-- `k` steps of the block lead from one state to another (10_state.md R40, R41). -/
inductive Steps : Nat → State → State → Prop where
  | zero (s : State) : Steps 0 s s
  | succ (k : Nat) (s t u : State) (next : Machine.step s = .next t) (rest : Steps k t u) : Steps (k + 1) s u

/-! ### Frames -/

/-- Everything but the general registers, the pc and the data store: the instruction store byte by byte, the run state and
the parameters. The block has no flags, special registers, accumulators or exception registers (10_state.md R42 to R44). -/
def SameOutside (s t : State) : Prop :=
  (∀ a : Nat, t.imem.readByte a = s.imem.readByte a) ∧ t.run = s.run ∧ t.cfg = s.cfg

/-- Every byte of the data store reads as before. -/
def SameData (s t : State) : Prop := ∀ a : Nat, t.dmem.readByte a = s.dmem.readByte a

/-- Every general register is as before, except that `rd` holds `v`; x0 still reads 0 (10_state.md R31, R32). -/
def OnlyRd (s t : State) (rd : Reg) (v : Word) : Prop :=
  ∀ r : Reg, t.x r = if r = 0 then 0 else if r = rd then v else s.x r

/-- Every general register is as before. -/
def SameRegs (s t : State) : Prop := ∀ r : Reg, t.x r = s.x r

/-- `t` is `s` after an instruction that writes `v` to `rd`, changes nothing else and goes on at pc + 4. -/
def WritesRd (s t : State) (rd : Reg) (v : Word) : Prop :=
  OnlyRd s t rd v ∧ t.pc = s.pc + 4 ∧ SameData s t ∧ SameOutside s t

/-- `s` halted by a fault, nothing else changed (60_exceptions.md R251, R256). -/
def haltedBy (s : State) (code : FaultCode) (reason : Option IllegalReason) (inst addr : Option Word) : State :=
  { s with run := .halted { code := code, reason := reason, pc := s.pc, inst := inst, addr := addr } }

/-! ### What each instruction writes and where it goes, as the tables of 10_state.md R33 and R37 say it -/

/-- The register an instruction writes (10_state.md R33). -/
def rdOf : Instr → Option Reg
  | .add rd _ _ | .sub rd _ _ | .sll rd _ _ | .slt rd _ _ | .sltu rd _ _ => some rd
  | .xor rd _ _ | .srl rd _ _ | .sra rd _ _ | .or rd _ _ | .and rd _ _ => some rd
  | .addi rd _ _ | .slti rd _ _ | .sltiu rd _ _ | .xori rd _ _ | .ori rd _ _ | .andi rd _ _ => some rd
  | .slli rd _ _ | .srli rd _ _ | .srai rd _ _ => some rd
  | .lui rd _ | .auipc rd _ | .jal rd _ => some rd
  | .jalr rd _ _ => some rd
  | .beq _ _ _ | .bne _ _ _ | .blt _ _ _ | .bge _ _ _ | .bltu _ _ _ | .bgeu _ _ _ => none
  | .lb rd _ _ | .lh rd _ _ | .lw rd _ _ | .lbu rd _ _ | .lhu rd _ _ => some rd
  | .sb _ _ _ | .sh _ _ _ | .sw _ _ _ => none

/-- The integer computational instructions (40_integer_computational.md). -/
def isInteger : Instr → Bool
  | .add _ _ _ | .sub _ _ _ | .sll _ _ _ | .slt _ _ _ | .sltu _ _ _ => true
  | .xor _ _ _ | .srl _ _ _ | .sra _ _ _ | .or _ _ _ | .and _ _ _ => true
  | .addi _ _ _ | .slti _ _ _ | .sltiu _ _ _ | .xori _ _ _ | .ori _ _ _ | .andi _ _ _ => true
  | .slli _ _ _ | .srli _ _ _ | .srai _ _ _ => true
  | .lui _ _ | .auipc _ _ => true
  | .jal _ _ | .jalr _ _ _ => false
  | .beq _ _ _ | .bne _ _ _ | .blt _ _ _ | .bge _ _ _ | .bltu _ _ _ | .bgeu _ _ _ => false
  | .lb _ _ _ | .lh _ _ _ | .lw _ _ _ | .lbu _ _ _ | .lhu _ _ _ => false
  | .sb _ _ _ | .sh _ _ _ | .sw _ _ _ => false

/-- The loads (42_loads_stores.md R222 to R226). -/
def isLoad : Instr → Bool
  | .add _ _ _ | .sub _ _ _ | .sll _ _ _ | .slt _ _ _ | .sltu _ _ _ => false
  | .xor _ _ _ | .srl _ _ _ | .sra _ _ _ | .or _ _ _ | .and _ _ _ => false
  | .addi _ _ _ | .slti _ _ _ | .sltiu _ _ _ | .xori _ _ _ | .ori _ _ _ | .andi _ _ _ => false
  | .slli _ _ _ | .srli _ _ _ | .srai _ _ _ => false
  | .lui _ _ | .auipc _ _ => false
  | .jal _ _ | .jalr _ _ _ => false
  | .beq _ _ _ | .bne _ _ _ | .blt _ _ _ | .bge _ _ _ | .bltu _ _ _ | .bgeu _ _ _ => false
  | .lb _ _ _ | .lh _ _ _ | .lw _ _ _ | .lbu _ _ _ | .lhu _ _ _ => true
  | .sb _ _ _ | .sh _ _ _ | .sw _ _ _ => false

/-- The bytes a store instruction stores to: its effective address and how many (42_loads_stores.md R230 to R232). -/
def storeSpan (s : State) : Instr → Option (Nat × Nat)
  | .add _ _ _ | .sub _ _ _ | .sll _ _ _ | .slt _ _ _ | .sltu _ _ _ => none
  | .xor _ _ _ | .srl _ _ _ | .sra _ _ _ | .or _ _ _ | .and _ _ _ => none
  | .addi _ _ _ | .slti _ _ _ | .sltiu _ _ _ | .xori _ _ _ | .ori _ _ _ | .andi _ _ _ => none
  | .slli _ _ _ | .srli _ _ _ | .srai _ _ _ => none
  | .lui _ _ | .auipc _ _ => none
  | .jal _ _ | .jalr _ _ _ => none
  | .beq _ _ _ | .bne _ _ _ | .blt _ _ _ | .bge _ _ _ | .bltu _ _ _ | .bgeu _ _ _ => none
  | .lb _ _ _ | .lh _ _ _ | .lw _ _ _ | .lbu _ _ _ | .lhu _ _ _ => none
  | .sb _ rs1 imm => some ((effectiveAddress s rs1 imm).toNat, 1)
  | .sh _ rs1 imm => some ((effectiveAddress s rs1 imm).toNat, 2)
  | .sw _ rs1 imm => some ((effectiveAddress s rs1 imm).toNat, 4)

/-- The redirect of an instruction: "Only JAL, JALR and taken branches set a redirect" (10_state.md R37). -/
def redirectOf (s : State) : Instr → Option Word
  | .add _ _ _ | .sub _ _ _ | .sll _ _ _ | .slt _ _ _ | .sltu _ _ _ => none
  | .xor _ _ _ | .srl _ _ _ | .sra _ _ _ | .or _ _ _ | .and _ _ _ => none
  | .addi _ _ _ | .slti _ _ _ | .sltiu _ _ _ | .xori _ _ _ | .ori _ _ _ | .andi _ _ _ => none
  | .slli _ _ _ | .srli _ _ _ | .srai _ _ _ => none
  | .lui _ _ | .auipc _ _ => none
  | .jal _ offset => some (jalTarget s offset)
  | .jalr _ rs1 imm => some (jalrTarget s rs1 imm)
  | .beq rs1 rs2 offset => if s.x rs1 = s.x rs2 then some (branchTarget s offset) else none
  | .bne rs1 rs2 offset => if s.x rs1 ≠ s.x rs2 then some (branchTarget s offset) else none
  | .blt rs1 rs2 offset => if (s.x rs1).toInt < (s.x rs2).toInt then some (branchTarget s offset) else none
  | .bge rs1 rs2 offset => if (s.x rs2).toInt ≤ (s.x rs1).toInt then some (branchTarget s offset) else none
  | .bltu rs1 rs2 offset => if (s.x rs1).toNat < (s.x rs2).toNat then some (branchTarget s offset) else none
  | .bgeu rs1 rs2 offset => if (s.x rs2).toNat ≤ (s.x rs1).toNat then some (branchTarget s offset) else none
  | .lb _ _ _ | .lh _ _ _ | .lw _ _ _ | .lbu _ _ _ | .lhu _ _ _ => none
  | .sb _ _ _ | .sh _ _ _ | .sw _ _ _ => none

/-- The format of an instruction and the 32-bit immediate its behaviour reads, if it reads one; the shift-immediates read
the shift amount instead (30_encoding.md R107, R108). -/
def immediateOf : Instr → Option (Format × Word)
  | .add _ _ _ | .sub _ _ _ | .sll _ _ _ | .slt _ _ _ | .sltu _ _ _ => none
  | .xor _ _ _ | .srl _ _ _ | .sra _ _ _ | .or _ _ _ | .and _ _ _ => none
  | .addi _ _ imm | .slti _ _ imm | .sltiu _ _ imm => some (.I, immOperand imm)
  | .xori _ _ imm | .ori _ _ imm | .andi _ _ imm => some (.I, immOperand imm)
  | .slli _ _ _ | .srli _ _ _ | .srai _ _ _ => none
  | .lui _ imm | .auipc _ imm => some (.U, upperOperand imm)
  | .jal _ offset => some (.J, sext 21 offset)
  | .jalr _ _ imm => some (.I, immOperand imm)
  | .beq _ _ offset | .bne _ _ offset | .blt _ _ offset => some (.B, sext 13 offset)
  | .bge _ _ offset | .bltu _ _ offset | .bgeu _ _ offset => some (.B, sext 13 offset)
  | .lb _ _ imm | .lh _ _ imm | .lw _ _ imm | .lbu _ _ imm | .lhu _ _ imm => some (.I, immOperand imm)
  | .sb _ _ imm | .sh _ _ imm | .sw _ _ imm => some (.S, immOperand imm)

/-- The behaviour of a dispatch output, on the output's own fields as each rule's pseudocode writes it: the 32-bit immediate as
the mux assembles it, `zext_5(shamt)` for the shift-immediates, and no field that the rule does not name (30_encoding.md R108,
R125; 40_integer_computational.md R150 to R171; 41_control_transfer.md R192 to R205; 42_loads_stores.md R220 to R232). -/
def behaviourOf (d : DispatchOutput) (s : State) : Behaviour :=
  match d.tag with
  | .add => aluBehaviour .add d.rd (s.x d.rs1) (s.x d.rs2)
  | .sub => aluBehaviour .sub d.rd (s.x d.rs1) (s.x d.rs2)
  | .sll => aluBehaviour .sll d.rd (s.x d.rs1) (s.x d.rs2)
  | .slt => aluBehaviour .slt d.rd (s.x d.rs1) (s.x d.rs2)
  | .sltu => aluBehaviour .sltu d.rd (s.x d.rs1) (s.x d.rs2)
  | .xor => aluBehaviour .xor d.rd (s.x d.rs1) (s.x d.rs2)
  | .srl => aluBehaviour .srl d.rd (s.x d.rs1) (s.x d.rs2)
  | .sra => aluBehaviour .sra d.rd (s.x d.rs1) (s.x d.rs2)
  | .or => aluBehaviour .or d.rd (s.x d.rs1) (s.x d.rs2)
  | .and => aluBehaviour .and d.rd (s.x d.rs1) (s.x d.rs2)
  | .addi => aluBehaviour .add d.rd (s.x d.rs1) d.imm
  | .slti => aluBehaviour .slt d.rd (s.x d.rs1) d.imm
  | .sltiu => aluBehaviour .sltu d.rd (s.x d.rs1) d.imm
  | .xori => aluBehaviour .xor d.rd (s.x d.rs1) d.imm
  | .ori => aluBehaviour .or d.rd (s.x d.rs1) d.imm
  | .andi => aluBehaviour .and d.rd (s.x d.rs1) d.imm
  | .slli => aluBehaviour .sll d.rd (s.x d.rs1) (zext 5 d.shamt)
  | .srli => aluBehaviour .srl d.rd (s.x d.rs1) (zext 5 d.shamt)
  | .srai => aluBehaviour .sra d.rd (s.x d.rs1) (zext 5 d.shamt)
  | .lui => .done (Effect.writeRd d.rd d.imm)
  | .auipc => .done (Effect.writeRd d.rd (s.pc + d.imm))
  | .jal => transfer (s.pc + d.imm) (some (d.rd, s.pc + 4))
  | .jalr => transfer ((s.x d.rs1 + d.imm) &&& 0xFFFFFFFE#32) (some (d.rd, s.pc + 4))
  | .beq => branch (cmp .eq (s.x d.rs1) (s.x d.rs2)) (s.pc + d.imm)
  | .bne => branch (cmp .ne (s.x d.rs1) (s.x d.rs2)) (s.pc + d.imm)
  | .blt => branch (cmp .lt (s.x d.rs1) (s.x d.rs2)) (s.pc + d.imm)
  | .bge => branch (cmp .ge (s.x d.rs1) (s.x d.rs2)) (s.pc + d.imm)
  | .bltu => branch (cmp .ltu (s.x d.rs1) (s.x d.rs2)) (s.pc + d.imm)
  | .bgeu => branch (cmp .geu (s.x d.rs1) (s.x d.rs2)) (s.pc + d.imm)
  | .lb => loadBehaviour .lb d.rd (s.x d.rs1 + d.imm) s
  | .lh => loadBehaviour .lh d.rd (s.x d.rs1 + d.imm) s
  | .lw => loadBehaviour .lw d.rd (s.x d.rs1 + d.imm) s
  | .lbu => loadBehaviour .lbu d.rd (s.x d.rs1 + d.imm) s
  | .lhu => loadBehaviour .lhu d.rd (s.x d.rs1 + d.imm) s
  | .sb => storeBehaviour .byte (s.x d.rs2) (s.x d.rs1 + d.imm) s
  | .sh => storeBehaviour .half (s.x d.rs2) (s.x d.rs1 + d.imm) s
  | .sw => storeBehaviour .word (s.x d.rs2) (s.x d.rs1 + d.imm) s

/-! ### How a word reads as an instruction: each rule's "Encoding" line -/

/-- A word's register field at bit `lo`. -/
def regField (w : Word) (lo : Nat) : Reg := (w.extractLsb' lo 5).toFin

/-- Every word with this opcode, funct3 and funct7 is the R-type instruction of its fields (30_encoding.md R94). -/
def ReadsAsR (opcode : BitVec 7) (funct3 : BitVec 3) (funct7 : BitVec 7) (mk : Reg → Reg → Reg → Instr) : Prop :=
  ∀ (extra : List (BitVec 7)) (w : Word), w.extractLsb' 0 7 = opcode → w.extractLsb' 12 3 = funct3 →
    w.extractLsb' 25 7 = funct7 → decode extra w = .instr (mk (regField w 7) (regField w 15) (regField w 20))

/-- Every word with this opcode and funct3 is the I-type instruction of its fields (30_encoding.md R95). -/
def ReadsAsI (opcode : BitVec 7) (funct3 : BitVec 3) (mk : Reg → Reg → BitVec 12 → Instr) : Prop :=
  ∀ (extra : List (BitVec 7)) (w : Word), w.extractLsb' 0 7 = opcode → w.extractLsb' 12 3 = funct3 →
    decode extra w = .instr (mk (regField w 7) (regField w 15) (w.extractLsb' 20 12))

/-- Every word with this opcode, funct3 and imm[11:5] is the shift-immediate of its fields (30_encoding.md R95, R105). -/
def ReadsAsShift (funct3 : BitVec 3) (imm11_5 : BitVec 7) (mk : Reg → Reg → BitVec 5 → Instr) : Prop :=
  ∀ (extra : List (BitVec 7)) (w : Word), w.extractLsb' 0 7 = 0b0010011#7 → w.extractLsb' 12 3 = funct3 →
    w.extractLsb' 25 7 = imm11_5 →
    decode extra w = .instr (mk (regField w 7) (regField w 15) (w.extractLsb' 20 5))

/-- Every word with this opcode is the U-type instruction of its fields (30_encoding.md R98). -/
def ReadsAsU (opcode : BitVec 7) (mk : Reg → BitVec 20 → Instr) : Prop :=
  ∀ (extra : List (BitVec 7)) (w : Word), w.extractLsb' 0 7 = opcode →
    decode extra w = .instr (mk (regField w 7) (w.extractLsb' 12 20))

/-- Every word with this opcode is the J-type instruction of its fields, offset by field name (30_encoding.md R99, R104). -/
def ReadsAsJ (opcode : BitVec 7) (mk : Reg → BitVec 21 → Instr) : Prop :=
  ∀ (extra : List (BitVec 7)) (w : Word), w.extractLsb' 0 7 = opcode →
    decode extra w = .instr (mk (regField w 7) (w.extractLsb' 31 1 ++ w.extractLsb' 12 8 ++ w.extractLsb' 20 1 ++
      w.extractLsb' 21 10 ++ 0#1))

/-- Every word with this opcode and funct3 is the B-type instruction of its fields (30_encoding.md R97, R102). -/
def ReadsAsB (funct3 : BitVec 3) (mk : Reg → Reg → BitVec 13 → Instr) : Prop :=
  ∀ (extra : List (BitVec 7)) (w : Word), w.extractLsb' 0 7 = 0b1100011#7 → w.extractLsb' 12 3 = funct3 →
    decode extra w = .instr (mk (regField w 15) (regField w 20) (w.extractLsb' 31 1 ++ w.extractLsb' 7 1 ++
      w.extractLsb' 25 6 ++ w.extractLsb' 8 4 ++ 0#1))

/-- Every word with this opcode and funct3 is the S-type instruction of its fields (30_encoding.md R96, R101). -/
def ReadsAsS (funct3 : BitVec 3) (mk : Reg → Reg → BitVec 12 → Instr) : Prop :=
  ∀ (extra : List (BitVec 7)) (w : Word), w.extractLsb' 0 7 = 0b0100011#7 → w.extractLsb' 12 3 = funct3 →
    decode extra w = .instr (mk (regField w 20) (regField w 15) (w.extractLsb' 25 7 ++ w.extractLsb' 7 5))

/-! ### The shapes of control transfers, loads and stores -/

/-- A sum as the address arithmetic of the block makes it: exact, then modulo 2^32 (00_scope.md R9). -/
def wrapSum (base : Word) (offset : Int) : Nat := ((base.toNat + offset) % 2 ^ 32).toNat

/-- `mk` is a branch on `cond`: not taken it goes on at pc + 4; taken with an aligned target it goes there; nothing else
changes (41_control_transfer.md section 3). -/
def BranchesOn (mk : Reg → Reg → BitVec 13 → Instr) (cond : Word → Word → Prop) : Prop :=
  ∀ (s : State) (rs1 rs2 : Reg) (offset : BitVec 13),
    (¬ cond (s.x rs1) (s.x rs2) →
      ∃ t, exec (mk rs1 rs2 offset) s = .next t ∧ t.pc.toNat = wrapSum s.pc 4 ∧ SameRegs s t ∧ SameData s t ∧
        SameOutside s t) ∧
    (cond (s.x rs1) (s.x rs2) → wrapSum s.pc offset.toInt % 4 = 0 →
      ∃ t, exec (mk rs1 rs2 offset) s = .next t ∧ t.pc.toNat = wrapSum s.pc offset.toInt ∧ SameRegs s t ∧
        SameData s t ∧ SameOutside s t)

/-- `mk` is a branch that, taken to a target that is not a multiple of 4, halts the block at itself
(41_control_transfer.md R190). -/
def BranchFaultsOn (mk : Reg → Reg → BitVec 13 → Instr) (cond : Word → Word → Prop) : Prop :=
  ∀ (s : State) (rs1 rs2 : Reg) (offset : BitVec 13),
    cond (s.x rs1) (s.x rs2) → wrapSum s.pc offset.toInt % 4 ≠ 0 →
      exec (mk rs1 rs2 offset) s = .next (haltedBy s .instructionAddressMisaligned none
        (some (encode (mk rs1 rs2 offset))) (some (BitVec.ofNat 32 (wrapSum s.pc offset.toInt))))

/-- The bits of a load of `n` bytes at `ea`: the bytes in rising order, then copies of the top bit or zeros
(20_memory.md R66; 42_loads_stores.md R222 to R226). -/
def LoadedBits (m : Memory) (ea n : Nat) (signed : Bool) (v : Word) : Prop :=
  ∀ k < 32, v.getLsbD k =
    if k < 8 * n then (m.readByte (ea + k / 8)).getLsbD (k % 8)
    else signed && (m.readByte (ea + n - 1)).getLsbD 7

/-- `mk` is a load of `n` bytes: aligned and in range, it writes the widened value to rd and changes nothing else
(42_loads_stores.md R221). -/
def LoadsBytes (mk : Reg → Reg → BitVec 12 → Instr) (n : Nat) (signed : Bool) : Prop :=
  ∀ (s : State) (rd rs1 : Reg) (imm : BitVec 12),
    (effectiveAddress s rs1 imm).toNat % n = 0 → (effectiveAddress s rs1 imm).toNat / 4 < s.cfg.dmemWords →
      ∃ t v, exec (mk rd rs1 imm) s = .next t ∧ WritesRd s t rd v ∧
        LoadedBits s.dmem (effectiveAddress s rs1 imm).toNat n signed v

/-- `mk` is a store of `n` bytes: aligned and in range, it stores the low bytes of rs2 in rising order at its effective
address and changes nothing else (42_loads_stores.md R229; 20_memory.md R66, R70). -/
def StoresBytes (mk : Reg → Reg → BitVec 12 → Instr) (n : Nat) : Prop :=
  ∀ (s : State) (rs2 rs1 : Reg) (imm : BitVec 12),
    (effectiveAddress s rs1 imm).toNat % n = 0 → (effectiveAddress s rs1 imm).toNat / 4 < s.cfg.dmemWords →
      ∃ t, exec (mk rs2 rs1 imm) s = .next t ∧ SameRegs s t ∧ t.pc.toNat = wrapSum s.pc 4 ∧ SameOutside s t ∧
        ∀ ea : Nat, ea = (effectiveAddress s rs1 imm).toNat →
          (∀ k < n, t.dmem.readByte (ea + k) = (s.x rs2).extractLsb' (8 * k) 8) ∧
          (∀ a : Nat, (a < ea ∨ ea + n ≤ a) → t.dmem.readByte a = s.dmem.readByte a)

/-- `mk` is an access of `n` bytes that halts the block on a misaligned address, and on an aligned one out of range
(20_memory.md R67, R68; 60_exceptions.md R259). -/
def AccessFaults (mk : Reg → Reg → BitVec 12 → Instr) (n : Nat) (misaligned outOfRange : FaultCode) : Prop :=
  ∀ (s : State) (r rs1 : Reg) (imm : BitVec 12),
    ((effectiveAddress s rs1 imm).toNat % n ≠ 0 →
      exec (mk r rs1 imm) s = .next (haltedBy s misaligned none (some (encode (mk r rs1 imm)))
        (some (effectiveAddress s rs1 imm)))) ∧
    ((effectiveAddress s rs1 imm).toNat % n = 0 → s.cfg.dmemWords ≤ (effectiveAddress s rs1 imm).toNat / 4 →
      exec (mk r rs1 imm) s = .next (haltedBy s outOfRange none (some (encode (mk r rs1 imm)))
        (some (effectiveAddress s rs1 imm))))

/-- Two states alike in all but the data store. -/
def AgreeButData (s t : State) : Prop :=
  t.cfg = s.cfg ∧ SameRegs s t ∧ t.pc = s.pc ∧ t.imem = s.imem ∧ t.run = s.run

end Sys2Proof.Machine
end

