-- ==== Sys2Proof/Certificates/Slice0/Obligations.lean ====
section
/-! DEFINITION. The statements for the provers, in the order of OBLIGATIONS.json. Where a clause rests on a decision the
spec marks as its own (92_eei_decisions.md), the docstring names it; the numeric opcode and funct values (D20) and the field
positions (D21) are such decisions wherever a statement writes them out. -/
open Sys2Proof Sys2Proof.Machine

/-! ### Encoding -/

/-- Decoding the word of a well-formed instruction gives it back, every operand at every value, whatever
EXTRA_OPCODE_TAGS is (30_encoding.md sections 1 to 3). -/
def Obligations.EncodeThenDecodeIsIdentity : Prop :=
  ∀ (extra : List (BitVec 7)) (i : Instr), i.wf = true → decode extra (encode i) = .instr i

/-- A word that decodes is the encoding of what it decodes to, so every bit of it is fixed or read; and only well-formed
instructions are decoded (30_encoding.md sections 1 to 3). -/
def Obligations.DecodeThenEncodeIsIdentity : Prop :=
  ∀ (extra : List (BitVec 7)) (w : Word) (i : Instr), decode extra w = .instr i → encode i = w ∧ i.wf = true

/-- Dispatch and opcode_table.json agree on every word: "A word w selects a row when `w & mask = match`. No word selects two
rows; a word that selects none is illegal" (30_encoding.md, opening paragraph). -/
def Obligations.DispatchAgreesWithOpcodeTable : Prop :=
  ∀ (extra : List (BitVec 7)) (w : Word),
    (∀ t : OpTag, t.selects w ↔ ∃ i, decode extra w = .instr i ∧ i.tag = t) ∧
    (∀ t u : OpTag, t.selects w → u.selects w → t = u) ∧
    ((∀ t : OpTag, ¬ t.selects w) ↔ ∃ reason, decode extra w = .illegal reason)

/-- The reason of an illegal word (30_encoding.md section 3), for EXTRA_OPCODE_TAGS disjoint from the ten named opcodes; and
fetching a word of any of the three reasons halts the block by the one fault IllegalInstruction with that reason. The opcode
values are decision D20; that a word matching no row is UnknownFunct rests on the exact matches of D12 and D13; the record's
code and reason fields are D14 and D18 (assumption log 5), the faulting step's next state is assumption log 3. -/
def Obligations.IllegalReasonOfEveryWord : Prop :=
  ∀ (extra : List (BitVec 7)) (w : Word),
    (∀ b ∈ extra, b ∉ [0x03#7, 0x13#7, 0x17#7, 0x23#7, 0x33#7, 0x37#7, 0x63#7, 0x67#7, 0x6F#7, 0x73#7]) →
    (decode extra w = .illegal .unknownOpcode ↔
      w.extractLsb' 0 7 ∉ [0x03#7, 0x13#7, 0x17#7, 0x23#7, 0x33#7, 0x37#7, 0x63#7, 0x67#7, 0x6F#7, 0x73#7] ∧
        w.extractLsb' 0 7 ∉ extra) ∧
    (decode extra w = .illegal .unimplemented ↔ w.extractLsb' 0 7 = 0x73#7 ∨ w.extractLsb' 0 7 ∈ extra) ∧
    (decode extra w = .illegal .unknownFunct ↔
      w.extractLsb' 0 7 ∈ [0x13#7, 0x33#7, 0x03#7, 0x23#7, 0x63#7, 0x67#7] ∧ ∀ t : OpTag, ¬ t.selects w) ∧
    (∀ (s : State) (reason : IllegalReason), s.cfg.extraOpcodeTags = extra → s.run = .running → ifetch s = some w →
      decode extra w = .illegal reason →
        ∃ t record, step s = .next t ∧ t.run = .halted record ∧ record.code = .illegalInstruction ∧
          record.reason = some reason)

/-- The opcode round trip (R133): the tag depends on bits [6:0] alone, the format decoders still give their fields, and any
other pattern is UnknownOpcode. -/
def Obligations.OpcodeRoundTrip : Prop :=
  (∀ (o : Opcode) (w : Word), w.extractLsb' 0 7 = o.bits → opcodeOf (opcodeField w) = some o) ∧
  (∀ (o o' : Opcode), o.bits = o'.bits → o = o') ∧
  (∀ (extra : List (BitVec 7)) (w : Word), (∀ o : Opcode, w.extractLsb' 0 7 ≠ o.bits) → w.extractLsb' 0 7 ∉ extra →
    decode extra w = .illegal .unknownOpcode)

/-- SYSTEM words are Unimplemented whatever their other bits; MISC-MEM words are illegal, the reason by
EXTRA_OPCODE_TAGS (decisions D9, D10). -/
def Obligations.SystemAndMiscMemAreIllegal : Prop :=
  ∀ (extra : List (BitVec 7)) (w : Word),
    (w.extractLsb' 0 7 = 0x73#7 → decode extra w = .illegal .unimplemented) ∧
    (w.extractLsb' 0 7 = 0x0F#7 →
      decode extra w = .illegal (if 0x0F#7 ∈ extra then .unimplemented else .unknownOpcode))

/-- Words the spec writes out decode to the instructions it writes beside them, one per family (a sanity check; the JAL word
is 95_test_vectors.md's). The field positions and values are decisions D20 and D21 (assumption log 5). -/
def Obligations.WrittenOutWordsDecode : Prop :=
  decode [] 0x402081B3#32 = .instr (.sub 3 1 2) ∧
  decode [] 0xFFC0A193#32 = .instr (.slti 3 1 (-4)) ∧
  decode [] 0x4040D193#32 = .instr (.srai 3 1 4) ∧
  decode [] 0xDEADC0B7#32 = .instr (.lui 1 0xDEADC) ∧
  decode [] 0xFF1FF0EF#32 = .instr (.jal 1 (-16)) ∧
  decode [] 0x004280E7#32 = .instr (.jalr 1 5 4) ∧
  decode [] 0xFE2098E3#32 = .instr (.bne 1 2 (-16)) ∧
  decode [] 0x0040A183#32 = .instr (.lw 3 1 4) ∧
  decode [] 0xFE20AE23#32 = .instr (.sw 2 1 (-4))

/-- The S, B, U and J immediates, bit by bit and by range (30_encoding.md section 2). The word positions are decision D21
(assumption log 5); the J order is the spec's resolution, by field name, of two conflicts (90_conflicts.md C1, C2). -/
def Obligations.ImmediatesAreReassembledByFieldName : Prop :=
  ∀ w : Word,
    ((∀ k < 32, (immS w).getLsbD k =
        if k < 5 then w.getLsbD (7 + k) else if k < 11 then w.getLsbD (20 + k) else w.getLsbD 31) ∧
      -2048 ≤ (immS w).toInt ∧ (immS w).toInt ≤ 2047) ∧
    ((∀ k < 32, (immB w).getLsbD k =
        if k = 0 then false else if k < 5 then w.getLsbD (7 + k) else if k < 11 then w.getLsbD (20 + k)
        else if k = 11 then w.getLsbD 7 else w.getLsbD 31) ∧
      (immB w).toInt % 2 = 0 ∧ -4096 ≤ (immB w).toInt ∧ (immB w).toInt ≤ 4094) ∧
    (∀ k < 32, (immU w).getLsbD k = if k < 12 then false else w.getLsbD k) ∧
    ((∀ k < 32, (immJ w).getLsbD k =
        if k = 0 then false else if k < 11 then w.getLsbD (20 + k) else if k = 11 then w.getLsbD 20
        else if k < 20 then w.getLsbD k else w.getLsbD 31) ∧
      (immJ w).toInt % 2 = 0 ∧ -1048576 ≤ (immJ w).toInt ∧ (immJ w).toInt ≤ 1048574)

/-- Every field of the dispatch output is the word's, its immediate is the output of the immediate mux for the format the
opcode selects, and what exec of the decoded instruction does is its behaviour on those very fields: the mux immediate as a
32-bit value, `zext_5(shamt)` for the shift-immediates, and no field its rule does not name (30_encoding.md sections 2 and 3;
the mux is decision D15, the positions D21). The last clause says the same of the immediate read back from the
instruction. -/
def Obligations.BehaviourReadsTheImmediateMux : Prop :=
  ∀ (extra : List (BitVec 7)) (w : Word),
    (∀ d : DispatchOutput, dispatch extra w = .op d →
      (∃ f, (opcodeOf (opcodeField w)).bind Opcode.format = some f ∧ d.imm = immMux f w) ∧
      d.rd = regField w 7 ∧ d.rs1 = regField w 15 ∧ d.rs2 = regField w 20 ∧ d.shamt = w.extractLsb' 20 5 ∧
      decode extra w = .instr d.instr ∧ ∀ s : State, exec d.instr s = finish d.instr s (behaviourOf d s)) ∧
    ∀ (i : Instr) (f : Format) (v : Word), decode extra w = .instr i → immediateOf i = some (f, v) →
      v = immMux f w ∧ (opcodeOf (opcodeField w)).bind Opcode.format = some f

/-- The laws of the extension primitives (R16), for every width 1..32. -/
def Obligations.ExtensionLaws : Prop :=
  ∀ (w : Nat) (v : Word), 1 ≤ w → w ≤ 32 →
    (∀ k < w, (sext w v).getLsbD k = v.getLsbD k) ∧
    (v.getLsbD (w - 1) = true → ∀ k, w - 1 ≤ k → k < 32 → (sext w v).getLsbD k = true) ∧
    (v.getLsbD (w - 1) = false → ∀ k, w ≤ k → (sext w v).getLsbD k = false) ∧
    (∀ k, (zext w v).getLsbD k = if k < w then v.getLsbD k else false)

/-! ### Registers and reset -/

/-- Reading and writing registers: x0 reads 0 and discards writes, every other register reads what was last written to it,
and reads 0 until then (R31, R32). -/
def Obligations.RegisterFileReadsWhatWasWritten : Prop :=
  (∀ (c : Config) (r : Reg), (State.resetOf c).x r = 0) ∧
  ∀ (s : State) (i : Reg) (v : Word),
    s.x 0 = 0 ∧ s.setX 0 v = s ∧ (i ≠ 0 → (s.setX i v).x i = v) ∧ ∀ r, r ≠ i → (s.setX i v).x r = s.x r

/-- Only the destination register of an instruction changes, whatever the outcome; a destination x0 keeps every register
(the table of 10_state.md section 2). For an outcome that is a fault this is decision D14 (assumption log 5). -/
def Obligations.OnlyTheDestinationRegisterChanges : Prop :=
  ∀ (i : Instr) (s t : State) (r : Reg), exec i s = .next t → (rdOf i ≠ some r ∨ r = 0) → t.x r = s.x r

/-- An integer computational instruction with rd = x0 does nothing except advance the pc (30_encoding.md section 4: no hint
encodings). -/
def Obligations.IntegerInstructionToX0OnlyAdvances : Prop :=
  ∀ (i : Instr) (s : State), isInteger i = true → rdOf i = some 0 → exec i s = .next { s with pc := s.pc + 4 }

/-- Every register is 0 at reset, for any parameters (R282), and State.reset is such a state (its store sizes are the model's
choice, assumption log 2, and nothing here rests on them). -/
def Obligations.EveryRegisterIsZeroAtReset : Prop :=
  (∀ (c : Config) (r : Reg), (State.resetOf c).x r = 0) ∧ ∃ c, State.reset = State.resetOf c

/-- The state in which a run starts: reset, then the image, for any parameters and any image that fits
(70_reset_and_hazards.md sections 1 and 2; decisions D7, D22 and D23). That the accessors answer none past the end of a store
is the model's choice (assumption log 12). -/
def Obligations.LaunchStateIsResetWithTheImage : Prop :=
  ∀ (c : Config) (image : List Word), image.length ≤ c.imemWords →
    let s := (State.resetOf c).loadImage image
    (∀ k : Nat, s.hostImemWord k = if k < c.imemWords then some (image.getD k 0) else none) ∧
      (∀ k : Nat, s.hostDmemWord k = if k < c.dmemWords then some 0 else none) ∧ s.hostPc = 0 ∧
      (∀ r : Reg, s.hostReg r = 0) ∧ s.hostRunState = .running ∧ s.hostFault = none ∧ s.cfg = c

/-! ### One step -/

/-- A step of a running block whose pc is in range and whose word decodes is that instruction's own meaning: step adds
nothing around exec (R41). -/
def Obligations.StepRunsTheDecodedInstruction : Prop :=
  ∀ (s : State) (i : Instr), s.run = .running → s.pc.toNat / 4 < s.cfg.imemWords →
    decode s.cfg.extraOpcodeTags (s.imem.word (s.pc.toNat / 4)) = .instr i → step s = exec i s

/-- A word placed where the machine fetches runs at the very next step, for any state (assumption log 10: how a program
comes to run). -/
def Obligations.PlacedWordRunsNext : Prop :=
  ∀ (s : State) (w : Nat) (i : Instr), w < 2 ^ 32 →
    decode s.cfg.extraOpcodeTags (BitVec.ofNat 32 w) = .instr i →
      step (s.withFetchWord 32 w) = exec i (s.withFetchWord 32 w)

/-- A word Dispatch rejects halts the block with IllegalInstruction and its reason, at its pc, with its word
(60_exceptions.md section 1; the record and that nothing commits, decisions D14 and D18). -/
def Obligations.IllegalWordHaltsTheBlock : Prop :=
  ∀ (s : State) (reason : IllegalReason), s.run = .running → s.pc.toNat / 4 < s.cfg.imemWords →
    decode s.cfg.extraOpcodeTags (s.imem.word (s.pc.toNat / 4)) = .illegal reason →
      step s = .next (haltedBy s .illegalInstruction (some reason) (some (s.imem.word (s.pc.toNat / 4))) none)

/-- A fetch past the instruction store halts the block with FetchOutOfRange, no word and the pc as the address
(20_memory.md section 2; decisions D8, D14 and D18). -/
def Obligations.FetchOutOfRangeHaltsTheBlock : Prop :=
  ∀ s : State, s.run = .running → s.cfg.imemWords ≤ s.pc.toNat / 4 →
    step s = .next (haltedBy s .fetchOutOfRange none none (some s.pc))

/-- Halted is final (R258): no step, so the state never changes however long the host goes on. -/
def Obligations.HaltedIsFinal : Prop :=
  ∀ (s : State) (record : FaultRecord), s.run = .halted record →
    (∀ t, step s ≠ .next t) ∧ ∀ k : Nat, State.hostRun k s = s

/-- Every running state has a step, and it either completes with the block running or halts it; nothing else stops the
block (60_exceptions.md sections 1 and 2). That a fault commits nothing, so that the halted state is the very state of the step
but for its run field, is decision D14 (assumption log 5); that the faulting step has a next state is assumption log 3. -/
def Obligations.EveryRunningStateSteps : Prop :=
  ∀ s : State, s.run = .running → ∃ t, step s = .next t ∧
    (t.run = .running ∨ ∃ record, t.run = .halted record ∧ t = { s with run := .halted record } ∧ record.pc = s.pc)

/-- The shape of the record of every fault: code, reason, pc, word and address as the table has them (60_exceptions.md
section 1; decisions D14 and D18). The word is the one fetched (assumption log 6). -/
def Obligations.FaultRecordHasItsShape : Prop :=
  ∀ (s t : State) (record : FaultRecord), step s = .next t → t.run = .halted record →
    record.code.number ∈ [0, 1, 2, 4, 5, 6, 7] ∧
    (record.reason = none ↔ record.code.number ≠ 2) ∧
    record.pc = s.pc ∧
    (record.inst = none ↔ record.code.number = 1) ∧
    (∀ w, record.inst = some w → w = s.imem.word (s.pc.toNat / 4)) ∧
    (record.addr = none ↔ record.code.number = 2) ∧
    (record.code.number = 1 → record.addr = some s.pc)

/-- The next pc of a completed instruction (R37): the redirect target of a JAL, a JALR or a taken branch, otherwise pc + 4
modulo 2^32. -/
def Obligations.NextPcIsRedirectOrPlusFour : Prop :=
  ∀ (i : Instr) (s t : State), s.run = .running → exec i s = .next t → t.run = .running →
    (∀ target, redirectOf s i = some target → t.pc = target) ∧
    (redirectOf s i = none → t.pc.toNat = (s.pc.toNat + 4) % 2 ^ 32)

/-- No step changes the instruction store or the parameters, so no run does: self-modifying code is impossible
(20_memory.md sections 1 and 5). -/
def Obligations.InstructionStoreNeverChanges : Prop :=
  ∀ (k : Nat) (s : State),
    (∀ a : Nat, (State.hostRun k s).imem.readByte a = s.imem.readByte a) ∧ (State.hostRun k s).cfg = s.cfg

/-- Only a store changes the data store, and only the bytes it stores to (20_memory.md sections 2 and 3; 42_loads_stores.md).
Where it faults, that no byte changes is decision D14 (assumption log 5). -/
def Obligations.OnlyStoredBytesChange : Prop :=
  ∀ (i : Instr) (s t : State) (a : Nat), exec i s = .next t →
    (∀ ea n, storeSpan s i = some (ea, n) → ¬ (ea ≤ a ∧ a < ea + n)) → t.dmem.readByte a = s.dmem.readByte a

/-- The data store reaches the rest of the state through loads alone: in two states alike in all but the data store, an
instruction that is no load has results alike in all but the data store, faults included (20_memory.md section 1; for faults,
decision D14, assumption log 5). -/
def Obligations.DataReachesTheStateThroughLoadsAlone : Prop :=
  ∀ (i : Instr) (s s' t t' : State), isLoad i = false → AgreeButData s s' → exec i s = .next t → exec i s' = .next t' →
    AgreeButData t t'

/-! ### Invariants and runs -/

/-- Every step keeps the invariant: legal parameters, an aligned pc, both stores canonical and inside their size (10_state.md
section 3; 20_memory.md section 4). That misaligned targets fault, which keeps the pc aligned, is decision D5 (assumption
log 5); the canonical form of the stores is the model's choice (assumption log 1). -/
def Obligations.StepKeepsTheInvariant : Prop :=
  ∀ s t : State, Inv s → step s = .next t → Inv t

/-- Reset meets the invariant, for any legal parameters and for State.reset's, which are the model's choice (assumption log 2).
The reset pc is decision D7 (assumption log 5); the canonical form of the stores is the model's choice (assumption log 1). -/
def Obligations.ResetMeetsTheInvariant : Prop :=
  (∀ c : Config, ConfigOk c → Inv (State.resetOf c)) ∧ Inv State.reset

/-- Every state of a run, from any image that fits (assumption log 11), meets the invariant; so the pc is a multiple of 4 at every
fetch (10_state.md section 3). The reset pc, the place of the image and the fault on a misaligned target are decisions D7, D23
and D5 (assumption log 5); the canonical form of the stores is the model's choice (assumption log 1). -/
def Obligations.ReachableStatesMeetTheInvariant : Prop :=
  ∀ s : State, Reachable s → Inv s ∧ s.imem.within s.cfg.imemWords ∧ s.pc.toNat % 4 = 0

/-- With nothing loaded the all-zero word at pc 0 halts the block at once, UnknownOpcode unless 0 is an extra tag
(30_encoding.md section 4; 60_exceptions.md section 1; 70_reset_and_hazards.md sections 1 and 2; assumption log 10). The reset pc
is decision D7, the extra tags D11, the opcode values D20, the record's fields D14 and D18, and that nothing commits D14
(assumption log 5); that the faulting step has a next state is assumption log 3. -/
def Obligations.NothingLoadedHaltsAtOnce : Prop :=
  ∀ c : Config, 1 ≤ c.imemWords →
    step (State.resetOf c) = .next (haltedBy (State.resetOf c) .illegalInstruction
      (some (if 0#7 ∈ c.extraOpcodeTags then .unimplemented else .unknownOpcode)) (some 0#32) none)

/-- The host's bounded loop and the interface's run agree on a run with no fault (70_reset_and_hazards.md section 2). -/
def Obligations.HostRunAgreesWithCoreRun : Prop :=
  ∀ (k : Nat) (s : State), SafeFor k s →
    Host.Core.run Sys2Proof.core k s = .next (State.hostRun k s)

/-- The host's loop takes the block's steps, one after the other, until the bound or a fault: it starts with the first step;
from a Running state it ends after the whole bound with the block Running, or after no more than the bound with it halted;
and k steps lead to a Running state exactly when the loop of bound k meets no fault and is left in that state
(70_reset_and_hazards.md section 2; decision D17; the step that halts the block counts as a step, assumption log 3). -/
def Obligations.HostRunTakesTheStepsOfTheBlock : Prop :=
  (∀ (k : Nat) (s t : State), step s = .next t → State.hostRun (k + 1) s = State.hostRun k t) ∧
  (∀ (k : Nat) (s : State), s.run = .running → ∃ j ≤ k, Steps j s (State.hostRun k s) ∧
    ((State.hostRun k s).run = .running ∧ j = k ∨ ∃ record, (State.hostRun k s).run = .halted record)) ∧
  (∀ (k : Nat) (s t : State), Steps k s t ∧ t.run = .running ↔ SafeFor k s ∧ State.hostRun k s = t)

/-! ### Integer computational instructions: each rule's encoding, result and frame -/

/-- ADD and SUB: the exact sum or difference modulo 2^32 (40_integer_computational.md section 2; their encoding by decisions
D20 and D21, assumption log 5). -/
def Obligations.AddSubCompute : Prop :=
  (ReadsAsR 0b0110011#7 0b000#3 0b0000000#7 .add ∧ ReadsAsR 0b0110011#7 0b000#3 0b0100000#7 .sub) ∧
  ∀ (s : State) (rd rs1 rs2 : Reg),
    (∃ t v, exec (.add rd rs1 rs2) s = .next t ∧ WritesRd s t rd v ∧
      v.toNat = ((s.x rs1).toNat + (s.x rs2).toNat) % 2 ^ 32) ∧
    (∃ t v, exec (.sub rd rs1 rs2) s = .next t ∧ WritesRd s t rd v ∧
      (v.toNat : Int) = ((s.x rs1).toNat - (s.x rs2).toNat : Int) % 2 ^ 32)

/-- SLL, SRL and SRA, bit by bit: the amount is rs2 modulo 32 (40_integer_computational.md section 2; their encoding by
decisions D20 and D21, assumption log 5). -/
def Obligations.RegisterShiftsCompute : Prop :=
  (ReadsAsR 0b0110011#7 0b001#3 0b0000000#7 .sll ∧ ReadsAsR 0b0110011#7 0b101#3 0b0000000#7 .srl ∧
    ReadsAsR 0b0110011#7 0b101#3 0b0100000#7 .sra) ∧
  ∀ (s : State) (rd rs1 rs2 : Reg) (n : Nat), n = (s.x rs2).toNat % 32 →
    (∃ t v, exec (.sll rd rs1 rs2) s = .next t ∧ WritesRd s t rd v ∧
      ∀ k < 32, v.getLsbD k = if k < n then false else (s.x rs1).getLsbD (k - n)) ∧
    (∃ t v, exec (.srl rd rs1 rs2) s = .next t ∧ WritesRd s t rd v ∧
      ∀ k < 32, v.getLsbD k = if k + n < 32 then (s.x rs1).getLsbD (k + n) else false) ∧
    (∃ t v, exec (.sra rd rs1 rs2) s = .next t ∧ WritesRd s t rd v ∧
      ∀ k < 32, v.getLsbD k = if k + n < 32 then (s.x rs1).getLsbD (k + n) else (s.x rs1).getLsbD 31)

/-- SLT and SLTU: 1 or 0 by the signed or the unsigned value (40_integer_computational.md section 2; their encoding by
decisions D20 and D21, assumption log 5). -/
def Obligations.RegisterComparesCompute : Prop :=
  (ReadsAsR 0b0110011#7 0b010#3 0b0000000#7 .slt ∧ ReadsAsR 0b0110011#7 0b011#3 0b0000000#7 .sltu) ∧
  ∀ (s : State) (rd rs1 rs2 : Reg),
    (∃ t v, exec (.slt rd rs1 rs2) s = .next t ∧ WritesRd s t rd v ∧
      v.toNat = if (s.x rs1).toInt < (s.x rs2).toInt then 1 else 0) ∧
    (∃ t v, exec (.sltu rd rs1 rs2) s = .next t ∧ WritesRd s t rd v ∧
      v.toNat = if (s.x rs1).toNat < (s.x rs2).toNat then 1 else 0)

/-- XOR, OR and AND: bitwise, full width (40_integer_computational.md section 2; their encoding by decisions D20 and D21,
assumption log 5). -/
def Obligations.RegisterLogicComputes : Prop :=
  (ReadsAsR 0b0110011#7 0b100#3 0b0000000#7 .xor ∧ ReadsAsR 0b0110011#7 0b110#3 0b0000000#7 .or ∧
    ReadsAsR 0b0110011#7 0b111#3 0b0000000#7 .and) ∧
  ∀ (s : State) (rd rs1 rs2 : Reg),
    (∃ t v, exec (.xor rd rs1 rs2) s = .next t ∧ WritesRd s t rd v ∧
      ∀ k < 32, v.getLsbD k = ((s.x rs1).getLsbD k != (s.x rs2).getLsbD k)) ∧
    (∃ t v, exec (.or rd rs1 rs2) s = .next t ∧ WritesRd s t rd v ∧
      ∀ k < 32, v.getLsbD k = ((s.x rs1).getLsbD k || (s.x rs2).getLsbD k)) ∧
    (∃ t v, exec (.and rd rs1 rs2) s = .next t ∧ WritesRd s t rd v ∧
      ∀ k < 32, v.getLsbD k = ((s.x rs1).getLsbD k && (s.x rs2).getLsbD k))

/-- ADDI: rs1 plus the signed value of the immediate, modulo 2^32 (40_integer_computational.md section 3; its encoding by
decisions D20 and D21, assumption log 5). -/
def Obligations.AddImmediateComputes : Prop :=
  ReadsAsI 0b0010011#7 0b000#3 .addi ∧
  ∀ (s : State) (rd rs1 : Reg) (imm : BitVec 12),
    ∃ t v, exec (.addi rd rs1 imm) s = .next t ∧ WritesRd s t rd v ∧ v.toNat = wrapSum (s.x rs1) imm.toInt

/-- SLTI and SLTIU: the immediate is sign-extended; SLTIU then compares unsigned, that is with the immediate's signed value
modulo 2^32 (40_integer_computational.md section 3; their encoding by decisions D20 and D21, assumption log 5). -/
def Obligations.ImmediateComparesCompute : Prop :=
  (ReadsAsI 0b0010011#7 0b010#3 .slti ∧ ReadsAsI 0b0010011#7 0b011#3 .sltiu) ∧
  ∀ (s : State) (rd rs1 : Reg) (imm : BitVec 12),
    (∃ t v, exec (.slti rd rs1 imm) s = .next t ∧ WritesRd s t rd v ∧
      v.toNat = if (s.x rs1).toInt < imm.toInt then 1 else 0) ∧
    (∃ t v, exec (.sltiu rd rs1 imm) s = .next t ∧ WritesRd s t rd v ∧
      v.toNat = if ((s.x rs1).toNat : Int) < imm.toInt % 2 ^ 32 then 1 else 0)

/-- XORI, ORI and ANDI: bitwise, the upper 20 bits of the immediate being copies of its top bit
(40_integer_computational.md section 3; their encoding by decisions D20 and D21, assumption log 5). -/
def Obligations.ImmediateLogicComputes : Prop :=
  (ReadsAsI 0b0010011#7 0b100#3 .xori ∧ ReadsAsI 0b0010011#7 0b110#3 .ori ∧ ReadsAsI 0b0010011#7 0b111#3 .andi) ∧
  ∀ (s : State) (rd rs1 : Reg) (imm : BitVec 12),
    (∃ t v, exec (.xori rd rs1 imm) s = .next t ∧ WritesRd s t rd v ∧
      ∀ k < 32, v.getLsbD k = ((s.x rs1).getLsbD k != imm.getLsbD (min k 11))) ∧
    (∃ t v, exec (.ori rd rs1 imm) s = .next t ∧ WritesRd s t rd v ∧
      ∀ k < 32, v.getLsbD k = ((s.x rs1).getLsbD k || imm.getLsbD (min k 11))) ∧
    (∃ t v, exec (.andi rd rs1 imm) s = .next t ∧ WritesRd s t rd v ∧
      ∀ k < 32, v.getLsbD k = ((s.x rs1).getLsbD k && imm.getLsbD (min k 11)))

/-- SLLI, SRLI and SRAI, bit by bit (40_integer_computational.md section 3); under funct3 001 an imm[11:5] other than 0000000,
and under funct3 101 one other than 0000000 and 0100000, is illegal as UnknownFunct (30_encoding.md section 3, the exact match
of decision D12). Their encoding by decisions D20 and D21 (assumption log 5). -/
def Obligations.ImmediateShiftsCompute : Prop :=
  (ReadsAsShift 0b001#3 0b0000000#7 .slli ∧ ReadsAsShift 0b101#3 0b0000000#7 .srli ∧
    ReadsAsShift 0b101#3 0b0100000#7 .srai ∧
    ∀ (extra : List (BitVec 7)) (w : Word), w.extractLsb' 0 7 = 0b0010011#7 →
      (w.extractLsb' 12 3 = 0b001#3 → w.extractLsb' 25 7 ≠ 0b0000000#7 → decode extra w = .illegal .unknownFunct) ∧
      (w.extractLsb' 12 3 = 0b101#3 → w.extractLsb' 25 7 ≠ 0b0000000#7 → w.extractLsb' 25 7 ≠ 0b0100000#7 →
        decode extra w = .illegal .unknownFunct)) ∧
  ∀ (s : State) (rd rs1 : Reg) (shamt : BitVec 5),
    (∃ t v, exec (.slli rd rs1 shamt) s = .next t ∧ WritesRd s t rd v ∧
      ∀ k < 32, v.getLsbD k = if k < shamt.toNat then false else (s.x rs1).getLsbD (k - shamt.toNat)) ∧
    (∃ t v, exec (.srli rd rs1 shamt) s = .next t ∧ WritesRd s t rd v ∧
      ∀ k < 32, v.getLsbD k = if k + shamt.toNat < 32 then (s.x rs1).getLsbD (k + shamt.toNat) else false) ∧
    (∃ t v, exec (.srai rd rs1 shamt) s = .next t ∧ WritesRd s t rd v ∧
      ∀ k < 32, v.getLsbD k =
        if k + shamt.toNat < 32 then (s.x rs1).getLsbD (k + shamt.toNat) else (s.x rs1).getLsbD 31)

/-- LUI and AUIPC: imm20 times 4096, alone or added to the instruction's own address modulo 2^32
(40_integer_computational.md section 4; their encoding by decisions D20 and D21, assumption log 5). -/
def Obligations.UpperImmediatesCompute : Prop :=
  (ReadsAsU 0b0110111#7 .lui ∧ ReadsAsU 0b0010111#7 .auipc) ∧
  ∀ (s : State) (rd : Reg) (imm : BitVec 20),
    (∃ t v, exec (.lui rd imm) s = .next t ∧ WritesRd s t rd v ∧ v.toNat = imm.toNat * 4096) ∧
    (∃ t v, exec (.auipc rd imm) s = .next t ∧ WritesRd s t rd v ∧
      v.toNat = (s.pc.toNat + imm.toNat * 4096) % 2 ^ 32)

/-! ### Control transfer -/

/-- JAL and JALR to an aligned target: the redirect, the link and the frame; JALR drops bit 0 of the sum and reads the old
rs1 (41_control_transfer.md section 2; decision D13 fixes JALR's funct3, D20 and D21 the encodings). -/
def Obligations.JumpsGoToTheirTarget : Prop :=
  (ReadsAsJ 0b1101111#7 .jal ∧ ReadsAsI 0b1100111#7 0b000#3 .jalr) ∧
  (∀ (s : State) (rd : Reg) (offset : BitVec 21), wrapSum s.pc offset.toInt % 4 = 0 →
    ∃ t, exec (.jal rd offset) s = .next t ∧ t.pc.toNat = wrapSum s.pc offset.toInt ∧ OnlyRd s t rd (s.pc + 4) ∧
      SameData s t ∧ SameOutside s t) ∧
  (∀ (s : State) (rd rs1 : Reg) (imm : BitVec 12), wrapSum (s.x rs1) imm.toInt % 4 < 2 →
    ∃ t, exec (.jalr rd rs1 imm) s = .next t ∧
      t.pc.toNat = wrapSum (s.x rs1) imm.toInt - wrapSum (s.x rs1) imm.toInt % 2 ∧ OnlyRd s t rd (s.pc + 4) ∧
      SameData s t ∧ SameOutside s t)

/-- JAL and JALR to a target that is not a multiple of 4 halt the block at themselves, rd unwritten (41_control_transfer.md
section 1; decision D5; the record and that nothing commits, D14 and D18). -/
def Obligations.MisalignedJumpsHalt : Prop :=
  (∀ (s : State) (rd : Reg) (offset : BitVec 21), wrapSum s.pc offset.toInt % 4 ≠ 0 →
    exec (.jal rd offset) s = .next (haltedBy s .instructionAddressMisaligned none (some (encode (.jal rd offset)))
      (some (BitVec.ofNat 32 (wrapSum s.pc offset.toInt))))) ∧
  (∀ (s : State) (rd rs1 : Reg) (imm : BitVec 12), 2 ≤ wrapSum (s.x rs1) imm.toInt % 4 →
    exec (.jalr rd rs1 imm) s = .next (haltedBy s .instructionAddressMisaligned none (some (encode (.jalr rd rs1 imm)))
      (some (BitVec.ofNat 32 (wrapSum (s.x rs1) imm.toInt - wrapSum (s.x rs1) imm.toInt % 2)))))

/-- The link value (R194): whenever JAL or JALR completes, rd holds pc + 4 modulo 2^32, rd = x0 discards it, and no other
register changes. -/
def Obligations.JumpLinkIsPcPlusFour : Prop :=
  ∀ (i : Instr) (s t : State) (rd : Reg),
    ((∃ offset, i = .jal rd offset) ∨ (∃ rs1 imm, i = .jalr rd rs1 imm)) →
    s.run = .running → exec i s = .next t → t.run = .running →
      (rd ≠ 0 → (t.x rd).toNat = (s.pc.toNat + 4) % 2 ^ 32) ∧ t.x 0 = 0 ∧ ∀ r, r ≠ rd → t.x r = s.x r

/-- The six branches: their encoding (decisions D20 and D21), and where they go, not taken and taken to an aligned target
(41_control_transfer.md section 3). -/
def Obligations.BranchesGoByTheirCondition : Prop :=
  (ReadsAsB 0b000#3 .beq ∧ ReadsAsB 0b001#3 .bne ∧ ReadsAsB 0b100#3 .blt ∧ ReadsAsB 0b101#3 .bge ∧
    ReadsAsB 0b110#3 .bltu ∧ ReadsAsB 0b111#3 .bgeu) ∧
  BranchesOn .beq (fun a b => a = b) ∧
  BranchesOn .bne (fun a b => a ≠ b) ∧
  BranchesOn .blt (fun a b => a.toInt < b.toInt) ∧
  BranchesOn .bge (fun a b => a.toInt ≥ b.toInt) ∧
  BranchesOn .bltu (fun a b => a.toNat < b.toNat) ∧
  BranchesOn .bgeu (fun a b => a.toNat ≥ b.toNat)

/-- The six branches, taken to a target that is not a multiple of 4, halt the block at themselves (41_control_transfer.md
section 1; decision D5; the record and that nothing commits, D14 and D18). -/
def Obligations.MisalignedTakenBranchesHalt : Prop :=
  BranchFaultsOn .beq (fun a b => a = b) ∧
  BranchFaultsOn .bne (fun a b => a ≠ b) ∧
  BranchFaultsOn .blt (fun a b => a.toInt < b.toInt) ∧
  BranchFaultsOn .bge (fun a b => a.toInt ≥ b.toInt) ∧
  BranchFaultsOn .bltu (fun a b => a.toNat < b.toNat) ∧
  BranchFaultsOn .bgeu (fun a b => a.toNat ≥ b.toNat)

/-! ### Loads and stores -/

/-- The one addressing mode (R220): every load and store reads as its format's fields, its effective address is rs1 plus the
immediate's signed value modulo 2^32, and the base register of a store is never modified, nor a load's unless it is rd. -/
def Obligations.AddressIsBasePlusSignedOffset : Prop :=
  (ReadsAsI 0b0000011#7 0b000#3 .lb ∧ ReadsAsI 0b0000011#7 0b001#3 .lh ∧ ReadsAsI 0b0000011#7 0b010#3 .lw ∧
    ReadsAsI 0b0000011#7 0b100#3 .lbu ∧ ReadsAsI 0b0000011#7 0b101#3 .lhu ∧
    ReadsAsS 0b000#3 .sb ∧ ReadsAsS 0b001#3 .sh ∧ ReadsAsS 0b010#3 .sw) ∧
  (∀ (s : State) (rs1 : Reg) (imm : BitVec 12),
    (effectiveAddress s rs1 imm).toNat = wrapSum (s.x rs1) imm.toInt) ∧
  (∀ (i : Instr) (s t : State) (r rs1 : Reg) (imm : BitVec 12), exec i s = .next t →
    (i ∈ [.sb r rs1 imm, .sh r rs1 imm, .sw r rs1 imm] ∨
      (i ∈ [.lb r rs1 imm, .lh r rs1 imm, .lw r rs1 imm, .lbu r rs1 imm, .lhu r rs1 imm] ∧ rs1 ≠ r)) →
    t.x rs1 = s.x rs1)

/-- The five loads, aligned and in range: the little-endian bytes (decision D2), sign- or zero-extended, to rd; with
rd = x0 the access is made and the value discarded (42_loads_stores.md sections 1 and 2). -/
def Obligations.LoadsReadTheirBytes : Prop :=
  LoadsBytes .lb 1 true ∧ LoadsBytes .lh 2 true ∧ LoadsBytes .lw 4 true ∧ LoadsBytes .lbu 1 false ∧
    LoadsBytes .lhu 2 false

/-- The five loads halt the block on a misaligned address first, and on an aligned one out of range (20_memory.md section 3;
decisions D3, D14, D16, D18); rd = x0 faults too. -/
def Obligations.LoadFaultsHalt : Prop :=
  AccessFaults .lb 1 .misalignedLoad .loadOutOfRange ∧ AccessFaults .lh 2 .misalignedLoad .loadOutOfRange ∧
  AccessFaults .lw 4 .misalignedLoad .loadOutOfRange ∧ AccessFaults .lbu 1 .misalignedLoad .loadOutOfRange ∧
  AccessFaults .lhu 2 .misalignedLoad .loadOutOfRange

/-- The three stores, aligned and in range: the low bytes of rs2 in rising order (little-endian, decision D2), every other
byte and every register unchanged (42_loads_stores.md sections 1 and 3). -/
def Obligations.StoresWriteTheirBytes : Prop :=
  StoresBytes .sb 1 ∧ StoresBytes .sh 2 ∧ StoresBytes .sw 4

/-- The three stores halt the block on a misaligned address first, and on an aligned one out of range, memory unchanged
(20_memory.md section 3; decisions D3, D14, D16, D18). -/
def Obligations.StoreFaultsHalt : Prop :=
  AccessFaults .sb 1 .misalignedStore .storeOutOfRange ∧ AccessFaults .sh 2 .misalignedStore .storeOutOfRange ∧
  AccessFaults .sw 4 .misalignedStore .storeOutOfRange

/-- A load straight after a store to the same address returns the stored value: SW then LW whole, SH then LHU the low half,
SB then LBU the low byte (70_reset_and_hazards.md section 3; 20_memory.md section 5). -/
def Obligations.LoadAfterStoreReturnsTheValue : Prop :=
  ∀ (s : State) (rd rs2 rs1 : Reg) (imm : BitVec 12), rd ≠ 0 →
    (effectiveAddress s rs1 imm).toNat / 4 < s.cfg.dmemWords →
    ((effectiveAddress s rs1 imm).toNat % 4 = 0 → ∃ t u, exec (.sw rs2 rs1 imm) s = .next t ∧
      exec (.lw rd rs1 imm) t = .next u ∧ u.x rd = s.x rs2) ∧
    ((effectiveAddress s rs1 imm).toNat % 2 = 0 → ∃ t u, exec (.sh rs2 rs1 imm) s = .next t ∧
      exec (.lhu rd rs1 imm) t = .next u ∧ (u.x rd).toNat = (s.x rs2).toNat % 2 ^ 16) ∧
    (∃ t u, exec (.sb rs2 rs1 imm) s = .next t ∧
      exec (.lbu rd rs1 imm) t = .next u ∧ (u.x rd).toNat = (s.x rs2).toNat % 2 ^ 8)

/-- Mixed widths (20_memory.md section 3): after a word store, a byte load at each of its four addresses returns that byte of
the value, and a byte store then changes that byte of the word alone. -/
def Obligations.MixedWidthAccessesSeeTheSameBytes : Prop :=
  ∀ (s t : State) (rd rs2 rs1 rb rv : Reg) (imm immb : BitVec 12) (k : Nat),
    rd ≠ 0 → k < 4 → (effectiveAddress s rs1 imm).toNat % 4 = 0 →
    (effectiveAddress s rs1 imm).toNat / 4 < s.cfg.dmemWords → exec (.sw rs2 rs1 imm) s = .next t →
    (effectiveAddress t rb immb).toNat = (effectiveAddress s rs1 imm).toNat + k →
    (∃ u, exec (.lbu rd rb immb) t = .next u ∧ (u.x rd).toNat = (s.x rs2).toNat / 2 ^ (8 * k) % 2 ^ 8) ∧
    (∃ u, exec (.sb rv rb immb) t = .next u ∧
      ∀ n < 32, (u.dmem.word ((effectiveAddress s rs1 imm).toNat / 4)).getLsbD n =
        if n / 8 = k then (t.x rv).getLsbD (n % 8) else (s.x rs2).getLsbD n)
end

