-- ==== Sys2Proof/Laws/Decode.lean ====
section
/-! SUPPORT. The fields that the encoder's layouts put where the decoder reads them (30_encoding.md R94 to R99), and the
laws of the named opcodes (R112), of the extensions (00_scope.md R16) and of the dispatch mux (R124, R125). -/
namespace Sys2Proof

@[simp] theorem regOf_regBits (r : Reg) : regOf (regBits r) = r := rfl
@[simp] theorem regBits_regOf (f : BitVec 5) : regBits (regOf f) = f := rfl

/-! ### Named opcodes -/

@[simp] theorem opcodeOf_bits (o : Opcode) : opcodeOf o.bits = some o := by cases o <;> rfl

theorem opcodeOf_eq_some {b : BitVec 7} {o : Opcode} : opcodeOf b = some o ↔ b = o.bits := by
  constructor
  · revert b o
    have : ∀ b : BitVec 7, ∀ o ∈ opcodeOf b, b = o.bits := by decide
    exact fun {b o} h => this b o h
  · rintro rfl; exact opcodeOf_bits o

/-! ### Words as bit lists -/

/-- The low part of a concatenation. -/
theorem extractLsb'_append_low {n m : Nat} (hi : BitVec n) (lo : BitVec m) : (hi ++ lo).extractLsb' 0 m = lo := by
  ext k hk
  simp [BitVec.getLsbD_append, hk]

/-- A field inside the high part of a concatenation. -/
theorem extractLsb'_append_high {n m : Nat} (hi : BitVec n) (lo : BitVec m) (start len : Nat) (h : m ≤ start) :
    (hi ++ lo).extractLsb' start len = hi.extractLsb' (start - m) len := by
  ext k hk
  have h1 : ¬ start + k < m := by omega
  have h2 : start + k - m = start - m + k := by omega
  simp [BitVec.getLsbD_append, h1, h2]

theorem append_and_append {n m : Nat} (a c : BitVec n) (b d : BitVec m) : (a ++ b) &&& (c ++ d) = (a &&& c) ++ (b &&& d) := by
  ext k hk
  simp only [BitVec.getElem_and, BitVec.getElem_append]
  split <;> rfl

theorem append_eq_append {n m : Nat} (a c : BitVec n) (b d : BitVec m) : a ++ b = c ++ d ↔ a = c ∧ b = d := by
  constructor
  · intro h
    have low := congrArg (BitVec.extractLsb' 0 m) h
    have high := congrArg (BitVec.extractLsb' m n) h
    rw [extractLsb'_append_low, extractLsb'_append_low] at low
    rw [extractLsb'_append_high _ _ _ _ (Nat.le_refl m), extractLsb'_append_high _ _ _ _ (Nat.le_refl m), Nat.sub_self,
      BitVec.extractLsb'_eq_self, BitVec.extractLsb'_eq_self] at high
    exact ⟨high, low⟩
  · rintro ⟨rfl, rfl⟩; rfl

/-- A word is the concatenation of its funct7, middle, funct3, rd and opcode fields. -/
theorem word_eq_fields (w : Word) : w = w.extractLsb' 25 7 ++ w.extractLsb' 15 10 ++ w.extractLsb' 12 3 ++
    w.extractLsb' 7 5 ++ w.extractLsb' 0 7 := by
  apply BitVec.eq_of_getLsbD_eq
  intro k hk
  simp only [BitVec.getLsbD_append, BitVec.getLsbD_extractLsb']
  grind

/-! ### The three masks of opcode_table.json -/

section
variable (g g' : BitVec 7) (m m' : BitVec 10) (f f' : BitVec 3) (r r' : BitVec 5) (a a' : BitVec 7)

theorem fields_and_fields : (g ++ m ++ f ++ r ++ a) &&& (g' ++ m' ++ f' ++ r' ++ a') =
    (g &&& g') ++ (m &&& m') ++ (f &&& f') ++ (r &&& r') ++ (a &&& a') := by
  simp only [append_and_append]

theorem fields_eq_fields : g ++ m ++ f ++ r ++ a = g' ++ m' ++ f' ++ r' ++ a' ↔
    g = g' ∧ m = m' ∧ f = f' ∧ r = r' ∧ a = a' := by
  simp only [append_eq_append, and_assoc]

/-- A word under a mask that is made of field masks. -/
theorem and_fields (w : Word) : w &&& (g' ++ m' ++ f' ++ r' ++ a') =
    (w.extractLsb' 25 7 &&& g') ++ (w.extractLsb' 15 10 &&& m') ++ (w.extractLsb' 12 3 &&& f') ++
      (w.extractLsb' 7 5 &&& r') ++ (w.extractLsb' 0 7 &&& a') :=
  (congrArg (· &&& (g' ++ m' ++ f' ++ r' ++ a')) (word_eq_fields w)).trans (fields_and_fields ..)
end

theorem and_mask_funct7 (w : Word) (g : BitVec 7) (f : BitVec 3) (a : BitVec 7) :
    w &&& 0xFE00707F#32 = g ++ 0#10 ++ f ++ 0#5 ++ a ↔
      w.extractLsb' 25 7 = g ∧ w.extractLsb' 12 3 = f ∧ w.extractLsb' 0 7 = a := by
  refine (Iff.of_eq (congrArg (· = _) (and_fields (BitVec.allOnes 7) 0#10 (BitVec.allOnes 3) 0#5 (BitVec.allOnes 7) w))).trans
    ((fields_eq_fields ..).trans ?_)
  simp only [BitVec.and_zero, BitVec.and_allOnes, true_and]

theorem and_mask_funct3 (w : Word) (f : BitVec 3) (a : BitVec 7) :
    w &&& 0x0000707F#32 = 0#7 ++ 0#10 ++ f ++ 0#5 ++ a ↔ w.extractLsb' 12 3 = f ∧ w.extractLsb' 0 7 = a := by
  refine (Iff.of_eq (congrArg (· = _) (and_fields 0#7 0#10 (BitVec.allOnes 3) 0#5 (BitVec.allOnes 7) w))).trans
    ((fields_eq_fields ..).trans ?_)
  simp only [BitVec.and_zero, BitVec.and_allOnes, true_and]

theorem and_mask_opcode (w : Word) (a : BitVec 7) :
    w &&& 0x0000007F#32 = 0#7 ++ 0#10 ++ 0#3 ++ 0#5 ++ a ↔ w.extractLsb' 0 7 = a := by
  refine (Iff.of_eq (congrArg (· = _) (and_fields 0#7 0#10 0#3 0#5 (BitVec.allOnes 7) w))).trans
    ((fields_eq_fields ..).trans ?_)
  simp only [BitVec.and_zero, BitVec.and_allOnes, true_and]

/-! ### The opcode and the fields of an encoded word -/

theorem opcodeField_encodeR (f7 rs2 rs1 f3 rd o) : opcodeField (encodeR f7 rs2 rs1 f3 rd o) = o.bits := extractLsb'_append_low ..
theorem opcodeField_encodeI (imm rs1 f3 rd o) : opcodeField (encodeI imm rs1 f3 rd o) = o.bits := extractLsb'_append_low ..
theorem opcodeField_encodeS (imm rs2 rs1 f3 o) : opcodeField (encodeS imm rs2 rs1 f3 o) = o.bits := extractLsb'_append_low ..
theorem opcodeField_encodeB (offset rs2 rs1 f3 o) : opcodeField (encodeB offset rs2 rs1 f3 o) = o.bits := extractLsb'_append_low ..
theorem opcodeField_encodeU (imm rd o) : opcodeField (encodeU imm rd o) = o.bits := extractLsb'_append_low ..
theorem opcodeField_encodeJ (offset rd o) : opcodeField (encodeJ offset rd o) = o.bits := extractLsb'_append_low ..

/-- A register field is the register whose bits it holds. -/
theorem regOf_eq {f : BitVec 5} {r : Reg} (h : f = regBits r) : regOf f = r := h ▸ rfl

theorem decodeR_encodeR (f7 rs2 rs1 f3 rd o) : decodeR (encodeR f7 rs2 rs1 f3 rd o) =
    ⟨rd, f3, rs1, rs2, f7⟩ := by
  unfold encodeR decodeR
  rw [RType.mk.injEq]
  refine ⟨regOf_eq ?_, ?_, regOf_eq ?_, regOf_eq ?_, ?_⟩ <;>
    (ext k hk; simp only [BitVec.getElem_extractLsb', BitVec.getLsbD_append]; grind)

theorem decodeI_encodeI (imm rs1 f3 rd o) : decodeI (encodeI imm rs1 f3 rd o) =
    ⟨rd, f3, rs1, imm, imm.extractLsb' 0 5, imm.extractLsb' 5 7⟩ := by
  unfold encodeI decodeI
  rw [IType.mk.injEq]
  refine ⟨regOf_eq ?_, ?_, regOf_eq ?_, ?_, ?_, ?_⟩ <;>
    (ext k hk; simp only [BitVec.getElem_extractLsb', BitVec.getLsbD_append]; grind)

theorem decodeS_encodeS (imm rs2 rs1 f3 o) : decodeS (encodeS imm rs2 rs1 f3 o) =
    ⟨imm.extractLsb' 0 5, f3, rs1, rs2, imm.extractLsb' 5 7⟩ := by
  unfold encodeS decodeS
  rw [SType.mk.injEq]
  refine ⟨?_, ?_, regOf_eq ?_, regOf_eq ?_, ?_⟩ <;>
    (ext k hk; simp only [BitVec.getElem_extractLsb', BitVec.getLsbD_append, BitVec.getLsbD_extractLsb']; grind)

theorem decodeB_encodeB (offset rs2 rs1 f3 o) : decodeB (encodeB offset rs2 rs1 f3 o) =
    ⟨offset.extractLsb' 11 1, offset.extractLsb' 1 4, f3, rs1, rs2, offset.extractLsb' 5 6, offset.extractLsb' 12 1⟩ := by
  unfold encodeB decodeB
  rw [BType.mk.injEq]
  refine ⟨?_, ?_, ?_, regOf_eq ?_, regOf_eq ?_, ?_, ?_⟩ <;>
    (ext k hk; simp only [BitVec.getElem_extractLsb', BitVec.getLsbD_append, BitVec.getLsbD_extractLsb']; grind)

theorem decodeU_encodeU (imm rd o) : decodeU (encodeU imm rd o) =
    ⟨rd, imm⟩ := by
  unfold encodeU decodeU
  rw [UType.mk.injEq]
  refine ⟨regOf_eq ?_, ?_⟩ <;>
    (ext k hk; simp only [BitVec.getElem_extractLsb', BitVec.getLsbD_append]; grind)

theorem decodeJ_encodeJ (offset rd o) : decodeJ (encodeJ offset rd o) =
    ⟨rd, offset.extractLsb' 12 8, offset.extractLsb' 11 1, offset.extractLsb' 1 10, offset.extractLsb' 20 1⟩ := by
  unfold encodeJ decodeJ
  rw [JType.mk.injEq]
  refine ⟨regOf_eq ?_, ?_, ?_, ?_, ?_⟩ <;>
    (ext k hk; simp only [BitVec.getElem_extractLsb', BitVec.getLsbD_append, BitVec.getLsbD_extractLsb']; grind)

/-! ### A register field stands in the same place in every format that has it (30_encoding.md R94 to R99, R124) -/

@[simp] theorem decodeI_rd (w : Word) : (decodeI w).rd = (decodeR w).rd := rfl
@[simp] theorem decodeI_rs1 (w : Word) : (decodeI w).rs1 = (decodeR w).rs1 := rfl
@[simp] theorem decodeS_rs1 (w : Word) : (decodeS w).rs1 = (decodeR w).rs1 := rfl
@[simp] theorem decodeS_rs2 (w : Word) : (decodeS w).rs2 = (decodeR w).rs2 := rfl
@[simp] theorem decodeB_rs1 (w : Word) : (decodeB w).rs1 = (decodeR w).rs1 := rfl
@[simp] theorem decodeB_rs2 (w : Word) : (decodeB w).rs2 = (decodeR w).rs2 := rfl
@[simp] theorem decodeU_rd (w : Word) : (decodeU w).rd = (decodeR w).rd := rfl
@[simp] theorem decodeJ_rd (w : Word) : (decodeJ w).rd = (decodeR w).rd := rfl

@[simp] theorem rd_encodeI (imm rs1 f3 rd o) : (decodeR (encodeI imm rs1 f3 rd o)).rd = rd :=
  congrArg IType.rd (decodeI_encodeI ..)
@[simp] theorem rs1_encodeI (imm rs1 f3 rd o) : (decodeR (encodeI imm rs1 f3 rd o)).rs1 = rs1 :=
  congrArg IType.rs1 (decodeI_encodeI ..)
@[simp] theorem rs1_encodeS (imm rs2 rs1 f3 o) : (decodeR (encodeS imm rs2 rs1 f3 o)).rs1 = rs1 :=
  congrArg SType.rs1 (decodeS_encodeS ..)
@[simp] theorem rs2_encodeS (imm rs2 rs1 f3 o) : (decodeR (encodeS imm rs2 rs1 f3 o)).rs2 = rs2 :=
  congrArg SType.rs2 (decodeS_encodeS ..)
@[simp] theorem rs1_encodeB (offset rs2 rs1 f3 o) : (decodeR (encodeB offset rs2 rs1 f3 o)).rs1 = rs1 :=
  congrArg BType.rs1 (decodeB_encodeB ..)
@[simp] theorem rs2_encodeB (offset rs2 rs1 f3 o) : (decodeR (encodeB offset rs2 rs1 f3 o)).rs2 = rs2 :=
  congrArg BType.rs2 (decodeB_encodeB ..)
@[simp] theorem rd_encodeU (imm rd o) : (decodeR (encodeU imm rd o)).rd = rd := congrArg UType.rd (decodeU_encodeU ..)
@[simp] theorem rd_encodeJ (offset rd o) : (decodeR (encodeJ offset rd o)).rd = rd := congrArg JType.rd (decodeJ_encodeJ ..)

/-! ### An encoded word under the masks of opcode_table.json -/

theorem encodeR_and_mask (f7 : BitVec 7) (rs2 rs1 : Reg) (f3 : BitVec 3) (rd : Reg) (o : Opcode) :
    encodeR f7 rs2 rs1 f3 rd o &&& 0xFE00707F#32 = f7 ++ 0#10 ++ f3 ++ 0#5 ++ o.bits :=
  (and_mask_funct7 ..).mpr ⟨congrArg RType.funct7 (decodeR_encodeR ..), congrArg RType.funct3 (decodeR_encodeR ..),
    opcodeField_encodeR ..⟩

theorem encodeI_and_mask (imm : BitVec 12) (rs1 : Reg) (f3 : BitVec 3) (rd : Reg) (o : Opcode) :
    encodeI imm rs1 f3 rd o &&& 0x0000707F#32 = 0#7 ++ 0#10 ++ f3 ++ 0#5 ++ o.bits :=
  (and_mask_funct3 ..).mpr ⟨congrArg IType.funct3 (decodeI_encodeI ..), opcodeField_encodeI ..⟩

theorem encodeShift_and_mask (f7 : BitVec 7) (shamt : BitVec 5) (rs1 : Reg) (f3 : BitVec 3) (rd : Reg) (o : Opcode) :
    encodeI (f7 ++ shamt) rs1 f3 rd o &&& 0xFE00707F#32 = f7 ++ 0#10 ++ f3 ++ 0#5 ++ o.bits :=
  (and_mask_funct7 ..).mpr ⟨(congrArg IType.imm11_5 (decodeI_encodeI ..)).trans
      ((extractLsb'_append_high _ _ _ _ (Nat.le_refl 5)).trans BitVec.extractLsb'_eq_self),
    congrArg IType.funct3 (decodeI_encodeI ..), opcodeField_encodeI ..⟩

theorem encodeS_and_mask (imm : BitVec 12) (rs2 rs1 : Reg) (f3 : BitVec 3) (o : Opcode) :
    encodeS imm rs2 rs1 f3 o &&& 0x0000707F#32 = 0#7 ++ 0#10 ++ f3 ++ 0#5 ++ o.bits :=
  (and_mask_funct3 ..).mpr ⟨congrArg SType.funct3 (decodeS_encodeS ..), opcodeField_encodeS ..⟩

theorem encodeB_and_mask (offset : BitVec 13) (rs2 rs1 : Reg) (f3 : BitVec 3) (o : Opcode) :
    encodeB offset rs2 rs1 f3 o &&& 0x0000707F#32 = 0#7 ++ 0#10 ++ f3 ++ 0#5 ++ o.bits :=
  (and_mask_funct3 ..).mpr ⟨congrArg BType.funct3 (decodeB_encodeB ..), opcodeField_encodeB ..⟩

theorem encodeU_and_mask (imm : BitVec 20) (rd : Reg) (o : Opcode) :
    encodeU imm rd o &&& 0x0000007F#32 = 0#7 ++ 0#10 ++ 0#3 ++ 0#5 ++ o.bits :=
  (and_mask_opcode ..).mpr (opcodeField_encodeU ..)

theorem encodeJ_and_mask (offset : BitVec 21) (rd : Reg) (o : Opcode) :
    encodeJ offset rd o &&& 0x0000007F#32 = 0#7 ++ 0#10 ++ 0#3 ++ 0#5 ++ o.bits :=
  (and_mask_opcode ..).mpr (opcodeField_encodeJ ..)

/-! ### A word is the encoding of its fields -/

theorem encodeR_decodeR (w : Word) (o : Opcode) (ho : opcodeField w = o.bits) :
    encodeR (decodeR w).funct7 (decodeR w).rs2 (decodeR w).rs1 (decodeR w).funct3 (decodeR w).rd o = w := by
  simp only [encodeR, decodeR, ← ho, opcodeField, regBits_regOf]
  ext k hk
  simp only [BitVec.getElem_append, BitVec.getElem_extractLsb']
  grind

theorem encodeI_decodeI (w : Word) (o : Opcode) (ho : opcodeField w = o.bits) :
    encodeI (decodeI w).imm (decodeI w).rs1 (decodeI w).funct3 (decodeI w).rd o = w := by
  simp only [encodeI, decodeI, ← ho, opcodeField, regBits_regOf]
  ext k hk
  simp only [BitVec.getElem_append, BitVec.getElem_extractLsb']
  grind

theorem encodeS_decodeS (w : Word) (o : Opcode) (ho : opcodeField w = o.bits) :
    encodeS (decodeS w).imm (decodeS w).rs2 (decodeS w).rs1 (decodeS w).funct3 o = w := by
  simp only [encodeS, decodeS, SType.imm, ← ho, opcodeField, regBits_regOf]
  ext k hk
  simp only [BitVec.getElem_append, BitVec.getElem_extractLsb', BitVec.getLsbD_append, BitVec.getLsbD_extractLsb']
  grind

theorem encodeB_decodeB (w : Word) (o : Opcode) (ho : opcodeField w = o.bits) :
    encodeB (decodeB w).offset (decodeB w).rs2 (decodeB w).rs1 (decodeB w).funct3 o = w := by
  simp only [encodeB, decodeB, BType.offset, ← ho, opcodeField, regBits_regOf]
  ext k hk
  simp only [BitVec.getElem_append, BitVec.getElem_extractLsb', BitVec.getLsbD_append, BitVec.getLsbD_extractLsb']
  grind

theorem encodeU_decodeU (w : Word) (o : Opcode) (ho : opcodeField w = o.bits) :
    encodeU (decodeU w).imm (decodeU w).rd o = w := by
  simp only [encodeU, decodeU, ← ho, opcodeField, regBits_regOf]
  ext k hk
  simp only [BitVec.getElem_append, BitVec.getElem_extractLsb']
  grind

theorem encodeJ_decodeJ (w : Word) (o : Opcode) (ho : opcodeField w = o.bits) :
    encodeJ (decodeJ w).offset (decodeJ w).rd o = w := by
  simp only [encodeJ, decodeJ, JType.offset, ← ho, opcodeField, regBits_regOf]
  ext k hk
  simp only [BitVec.getElem_append, BitVec.getElem_extractLsb', BitVec.getLsbD_append, BitVec.getLsbD_extractLsb']
  grind

theorem IType.imm_eq_views (w : Word) : (decodeI w).imm11_5 ++ (decodeI w).imm4_0 = (decodeI w).imm := by
  simp only [decodeI]
  ext k hk
  simp only [BitVec.getElem_append, BitVec.getElem_extractLsb']
  grind

/-! ### Offsets and scattered immediates -/

theorem evenOffset_decodeB (w : Word) : evenOffset (decodeB w).offset = true := by
  simp only [evenOffset, BType.offset, BitVec.getLsbD_append]
  rfl

theorem evenOffset_decodeJ (w : Word) : evenOffset (decodeJ w).offset = true := by
  simp only [evenOffset, JType.offset, BitVec.getLsbD_append]
  rfl

theorem immS_join (imm : BitVec 12) : imm.extractLsb' 5 7 ++ imm.extractLsb' 0 5 = imm := by
  ext k hk
  simp only [BitVec.getElem_append, BitVec.getElem_extractLsb']
  grind

theorem offsetB_join (offset : BitVec 13) (even : evenOffset offset = true) :
    (offset.extractLsb' 12 1 ++ offset.extractLsb' 11 1 ++ offset.extractLsb' 5 6 ++ offset.extractLsb' 1 4 ++ 0#1
      : BitVec 13) = offset := by
  have h : offset.getLsbD 0 = false := by simpa [evenOffset] using even
  ext k hk
  simp only [BitVec.getElem_append, BitVec.getElem_extractLsb']
  grind

theorem offsetJ_join (offset : BitVec 21) (even : evenOffset offset = true) :
    (offset.extractLsb' 20 1 ++ offset.extractLsb' 12 8 ++ offset.extractLsb' 11 1 ++ offset.extractLsb' 1 10 ++ 0#1
      : BitVec 21) = offset := by
  have h : offset.getLsbD 0 = false := by simpa [evenOffset] using even
  ext k hk
  simp only [BitVec.getElem_append, BitVec.getElem_extractLsb']
  grind

/-! ### Extensions -/

/-- Bit k of a sign extension (00_scope.md R13, R16). -/
theorem getLsbD_sext {n : Nat} (w : Nat) (v : BitVec n) (hw : 1 ≤ w) (hw' : w ≤ 32) (k : Nat) :
    (sext w v).getLsbD k = if k < 32 then (if k < w then v.getLsbD k else v.getLsbD (w - 1)) else false := by
  unfold sext
  rw [BitVec.getLsbD_signExtend]
  by_cases h : k < 32 <;> simp [h]
  by_cases h' : k < w <;> simp [h']
  rw [BitVec.msb_eq_getLsbD_last]; simp [BitVec.getLsbD_setWidth]; omega

/-- Bit k of a zero extension (00_scope.md R14, R16). -/
theorem getLsbD_zext {n : Nat} (w : Nat) (v : BitVec n) (hw : w ≤ 32) (k : Nat) :
    (zext w v).getLsbD k = (decide (k < w) && v.getLsbD k) := by
  unfold zext
  simp [BitVec.getLsbD_setWidth]
  by_cases h : k < w <;> simp [h]; omega

/-- A sign extension keeps the signed value. -/
theorem toInt_sext {n : Nat} (v : BitVec n) (hn : n ≤ 32) : (sext n v).toInt = v.toInt := by
  unfold sext
  rw [BitVec.setWidth_eq, BitVec.toInt_signExtend_of_le hn]

/-- The stored bits of a sign extension. -/
theorem extractLsb'_sext {n : Nat} (v : BitVec n) (hn : n ≤ 32) : (sext n v).extractLsb' 0 n = v := by
  ext k hk
  have := getLsbD_sext n v (by omega) hn k
  simpa [BitVec.getElem_extractLsb', hk, show k < 32 by omega] using this

/-! ### The stored bits of a mux output (30_encoding.md R108), and the 32-bit value back from them -/

@[simp] theorem immField_immI (w : Word) : immField (immI w) = (decodeI w).imm := extractLsb'_sext _ (by decide)
@[simp] theorem immField_immS (w : Word) : immField (immS w) = (decodeS w).imm := extractLsb'_sext _ (by decide)
@[simp] theorem branchField_immB (w : Word) : branchField (immB w) = (decodeB w).offset := extractLsb'_sext _ (by decide)
@[simp] theorem jalField_immJ (w : Word) : jalField (immJ w) = (decodeJ w).offset := extractLsb'_sext _ (by decide)
@[simp] theorem upperField_immU (w : Word) : upperField (immU w) = (decodeU w).imm :=
  (extractLsb'_append_high _ _ _ _ (Nat.le_refl 12)).trans BitVec.extractLsb'_eq_self

/-! ### What the dispatch mux can answer -/

theorem orUnknownFunct_eq_op {w : Word} {o : Option OpTag} {d : DispatchOutput} :
    orUnknownFunct w o = .op d ↔ ∃ t, o = some t ∧ dispatchOutput t w = d := by
  cases o <;> simp [orUnknownFunct]

theorem orUnknownFunct_eq_illegal {w : Word} {o : Option OpTag} {reason : IllegalReason} :
    orUnknownFunct w o = .illegal reason ↔ o = none ∧ reason = .unknownFunct := by
  cases o <;> simp [orUnknownFunct, eq_comm]

/-- The tag of a word by its opcode and funct fields, where it has one (30_encoding.md R124). -/
def tagOf (w : Word) : Opcode → Option OpTag
  | .op => lookupOp (decodeR w).funct3 (decodeR w).funct7
  | .opImm => lookupOpImm (decodeI w).funct3 (decodeI w).imm11_5
  | .load => lookupLoad (decodeI w).funct3
  | .store => lookupStore (decodeS w).funct3
  | .branch => lookupBranch (decodeB w).funct3
  | .jalr => lookupJalr (decodeI w).funct3
  | .jal => some .jal
  | .lui => some .lui
  | .auipc => some .auipc
  | .system => none

/-- A tag is found only under the opcode of its row, and its format is that opcode's. -/
theorem tagOf_format {w : Word} {o : Opcode} {t : OpTag} (h : tagOf w o = some t) : o.format = some t.format := by
  cases o <;> simp only [tagOf, lookupOp, lookupOpImm, lookupShiftLeftImm, lookupShiftRightImm, lookupLoad, lookupStore,
    lookupBranch, lookupJalr] at h
  all_goals first
    | (obtain rfl := Option.some.inj h; rfl)
    | (split at h <;> first | (obtain rfl := Option.some.inj h; rfl) | exact absurd h (by simp) |
        (split at h <;> first | (obtain rfl := Option.some.inj h; rfl) | exact absurd h (by simp)))
    | exact absurd h (by simp)

/-- The mux answers a tag exactly where the word's opcode and funct fields have one, and then every field of the word under
that tag (30_encoding.md R124, R125). -/
theorem dispatch_eq_op {extra : List (BitVec 7)} {w : Word} {d : DispatchOutput} :
    dispatch extra w = .op d ↔ ∃ o t, opcodeOf (opcodeField w) = some o ∧ tagOf w o = some t ∧ dispatchOutput t w = d := by
  unfold dispatch
  split <;> rename_i ho <;> simp [tagOf, ho, orUnknownFunct_eq_op]

/-- A word decodes to the instruction of its mux output. -/
theorem decode_eq_instr {extra : List (BitVec 7)} {w : Word} {i : Instr} :
    decode extra w = .instr i ↔ ∃ d, dispatch extra w = .op d ∧ d.instr = i := by
  unfold decode
  split <;> simp_all

theorem decode_eq_illegal {extra : List (BitVec 7)} {w : Word} {reason : IllegalReason} :
    decode extra w = .illegal reason ↔ dispatch extra w = .illegal reason := by
  unfold decode
  split <;> simp_all

/-- The instruction of a word whose opcode and funct fields have a tag. -/
theorem decode_of_tagOf {extra : List (BitVec 7)} {w : Word} {o : Opcode} {t : OpTag}
    (ho : opcodeOf (opcodeField w) = some o) (ht : tagOf w o = some t) :
    decode extra w = .instr (dispatchOutput t w).instr :=
  decode_eq_instr.mpr ⟨_, dispatch_eq_op.mpr ⟨o, t, ho, ht, rfl⟩, rfl⟩

end Sys2Proof
end

