-- ==== Sys2Proof/Laws/State.lean ====
section
/-! SUPPORT. One lemma per field per update of State, so that no proof unfolds a record update. -/
namespace Sys2Proof.Machine

/-! ### Reset -/

@[simp] theorem State.resetOf_cfg (c : Config) : (State.resetOf c).cfg = c := rfl
@[simp] theorem State.resetOf_pc (c : Config) : (State.resetOf c).pc = 0 := rfl
@[simp] theorem State.resetOf_imem (c : Config) : (State.resetOf c).imem = [] := rfl
@[simp] theorem State.resetOf_dmem (c : Config) : (State.resetOf c).dmem = [] := rfl
@[simp] theorem State.resetOf_run (c : Config) : (State.resetOf c).run = .running := rfl

/-! ### Taking a fault -/

section
variable (c : Cause) (inst : Option Word) (s : State)
@[simp] theorem takeFault_cfg : (takeFault c inst s).cfg = s.cfg := rfl
@[simp] theorem takeFault_regs : (takeFault c inst s).regs = s.regs := rfl
@[simp] theorem takeFault_pc : (takeFault c inst s).pc = s.pc := rfl
@[simp] theorem takeFault_imem : (takeFault c inst s).imem = s.imem := rfl
@[simp] theorem takeFault_dmem : (takeFault c inst s).dmem = s.dmem := rfl
@[simp] theorem takeFault_run : (takeFault c inst s).run = .halted (faultRecord c s.pc inst) := rfl
@[simp] theorem takeFault_x (r : Reg) : (takeFault c inst s).x r = s.x r := rfl
end

/-! ### A register write -/

section
variable (s : State) (i : Reg) (v : Word)
@[simp] theorem State.setX_cfg : (s.setX i v).cfg = s.cfg := by unfold State.setX; split <;> rfl
@[simp] theorem State.setX_pc : (s.setX i v).pc = s.pc := by unfold State.setX; split <;> rfl
@[simp] theorem State.setX_imem : (s.setX i v).imem = s.imem := by unfold State.setX; split <;> rfl
@[simp] theorem State.setX_dmem : (s.setX i v).dmem = s.dmem := by unfold State.setX; split <;> rfl
@[simp] theorem State.setX_run : (s.setX i v).run = s.run := by unfold State.setX; split <;> rfl
@[simp] theorem State.setX_zero : s.setX 0 v = s := rfl
@[simp] theorem State.x_zero : s.x 0 = 0 := rfl

/-- A register reads what was last written to it; x0 reads 0 (10_state.md R31, R32). -/
theorem State.x_setX (r : Reg) : (s.setX i v).x r = if r = 0 then 0 else if r = i then v else s.x r := by
  by_cases hr : r = 0
  · subst hr; rfl
  · by_cases hi : i = 0
    · subst hi; simp [hr]
    · have hr' : r.val ≠ 0 := fun h => hr (Fin.ext h)
      have hi' : i.val ≠ 0 := fun h => hi (Fin.ext h)
      simp only [State.x, State.setX, hr, hi, if_false, Vector.getElem_set]
      by_cases h : r = i
      · subst h; simp
      · have : i.val - 1 ≠ r.val - 1 := fun hh => h (Fin.ext (by omega))
        simp [h, this]
end

/-- The general registers are read from the field `regs` alone. -/
theorem State.x_congr {s t : State} (h : s.regs = t.regs) (r : Reg) : s.x r = t.x r := by
  simp [State.x, h]

/-! ### Committing an effect -/

section
variable (s : State)
@[simp] theorem State.commitRd_none : s.commitRd none = s := rfl
@[simp] theorem State.commitRd_some (i : Reg) (v : Word) : s.commitRd (some (i, v)) = s.setX i v := rfl
@[simp] theorem State.commitMem_none : s.commitMem none = s := rfl

variable (rw : Option (Reg × Word)) (mw : Option MemWrite) (e : Effect)
@[simp] theorem State.commitRd_cfg : (s.commitRd rw).cfg = s.cfg := by cases rw <;> simp [State.commitRd]
@[simp] theorem State.commitRd_pc : (s.commitRd rw).pc = s.pc := by cases rw <;> simp [State.commitRd]
@[simp] theorem State.commitRd_imem : (s.commitRd rw).imem = s.imem := by cases rw <;> simp [State.commitRd]
@[simp] theorem State.commitRd_dmem : (s.commitRd rw).dmem = s.dmem := by cases rw <;> simp [State.commitRd]
@[simp] theorem State.commitRd_run : (s.commitRd rw).run = s.run := by cases rw <;> simp [State.commitRd]

@[simp] theorem State.commitMem_cfg : (s.commitMem mw).cfg = s.cfg := by cases mw <;> rfl
@[simp] theorem State.commitMem_regs : (s.commitMem mw).regs = s.regs := by cases mw <;> rfl
@[simp] theorem State.commitMem_pc : (s.commitMem mw).pc = s.pc := by cases mw <;> rfl
@[simp] theorem State.commitMem_imem : (s.commitMem mw).imem = s.imem := by cases mw <;> rfl
@[simp] theorem State.commitMem_run : (s.commitMem mw).run = s.run := by cases mw <;> rfl
@[simp] theorem State.commitMem_x (r : Reg) : (s.commitMem mw).x r = s.x r := by cases mw <;> rfl

@[simp] theorem State.commit_cfg : (s.commit e).cfg = s.cfg := by simp [State.commit]
@[simp] theorem State.commit_pc : (s.commit e).pc = e.redirect.getD (s.pc + 4) := rfl
@[simp] theorem State.commit_imem : (s.commit e).imem = s.imem := by simp [State.commit]
@[simp] theorem State.commit_run : (s.commit e).run = s.run := by simp [State.commit]
@[simp] theorem State.commit_dmem : (s.commit e).dmem =
    match e.memWrite with
    | some w => memWriteValue s.dmem w.ea w.width w.value
    | none => s.dmem := by
  cases h : e.memWrite <;> simp [State.commit, State.commitMem, h]
@[simp] theorem State.commit_x (r : Reg) : (s.commit e).x r =
    match e.rdWrite with
    | some (i, v) => if r = 0 then 0 else if r = i then v else s.x r
    | none => s.x r := by
  have h : (s.commit e).x r = ((s.commitRd e.rdWrite).commitMem e.memWrite).x r := rfl
  rw [h, State.commitMem_x]
  rcases e.rdWrite with - | ⟨i, v⟩
  · rfl
  · exact State.x_setX s i v r
end

/-! ### The effect that only writes rd -/

@[simp] theorem Effect.writeRd_rdWrite (rd : Reg) (v : Word) : (Effect.writeRd rd v).rdWrite = some (rd, v) := rfl
@[simp] theorem Effect.writeRd_memWrite (rd : Reg) (v : Word) : (Effect.writeRd rd v).memWrite = none := rfl
@[simp] theorem Effect.writeRd_redirect (rd : Reg) (v : Word) : (Effect.writeRd rd v).redirect = none := rfl

/-! ### Placing words -/

section
variable (s : State) (w : Word) (image : List Word)
@[simp] theorem State.placeWord_regs : (s.placeWord w).regs = s.regs := rfl
@[simp] theorem State.placeWord_pc : (s.placeWord w).pc = s.pc := rfl
@[simp] theorem State.placeWord_dmem : (s.placeWord w).dmem = s.dmem := rfl
@[simp] theorem State.placeWord_run : (s.placeWord w).run = .running := rfl
@[simp] theorem State.placeWord_x (r : Reg) : (s.placeWord w).x r = s.x r := rfl
@[simp] theorem State.loadImage_cfg : (s.loadImage image).cfg = s.cfg := rfl
@[simp] theorem State.loadImage_regs : (s.loadImage image).regs = s.regs := rfl
@[simp] theorem State.loadImage_pc : (s.loadImage image).pc = s.pc := rfl
@[simp] theorem State.loadImage_dmem : (s.loadImage image).dmem = s.dmem := rfl
@[simp] theorem State.loadImage_run : (s.loadImage image).run = s.run := rfl
@[simp] theorem State.loadImage_imem : (s.loadImage image).imem = s.imem.writeWords 0 image := rfl
end

end Sys2Proof.Machine
end

