-- ==== Sys2Proof/Laws/Memory.lean ====
section
/-! SUPPORT. The laws of a store: a byte reads what was written to it, a write leaves every other byte alone, every
operation keeps the canonical form and the bound; then the same for the word port, MemRead and MemWrite. -/
namespace Sys2Proof.Machine

/-! ### One byte -/

@[simp] theorem Memory.readByte_nil (a : Nat) : Memory.readByte [] a = 0 := rfl

theorem Memory.readByte_cons (c : Host.Cell) (m : Memory) (a : Nat) :
    Memory.readByte (c :: m) a = if c.1 = a then c.2 else Memory.readByte m a := rfl

theorem Memory.readByte_erase (m : Memory) (a a' : Nat) :
    (m.erase a).readByte a' = if a' = a then 0 else m.readByte a' := by
  induction m with
  | nil => simp [Memory.erase]
  | cons c m ih =>
    have ih' : Memory.readByte (List.filter (fun c => c.1 != a) m) a' = if a' = a then 0 else Memory.readByte m a' := ih
    by_cases h : c.1 = a
    · simp only [Memory.erase, List.filter_cons, h, bne_self_eq_false, Bool.false_eq_true, if_false,
        Memory.readByte_cons, ih']
      grind
    · have : (c.1 != a) = true := by simpa using h
      simp only [Memory.erase, List.filter_cons, this, if_true, Memory.readByte_cons, ih']
      grind

theorem Memory.not_mem_erase (m : Memory) (a : Nat) : ∀ c ∈ m.erase a, c.1 ≠ a := by
  intro c hc
  simpa using (List.mem_filter.mp hc).2

theorem Memory.readByte_insert (a : Nat) (b : Byte) (m : Memory) (fresh : ∀ c ∈ m, c.1 ≠ a) (a' : Nat) :
    (Memory.insert a b m).readByte a' = if a' = a then b else m.readByte a' := by
  induction m with
  | nil => simp [Memory.insert, Memory.readByte_cons, eq_comm]
  | cons c m ih =>
    have hc := fresh c (by simp)
    have ih := ih (fun d hd => fresh d (by simp [hd]))
    unfold Memory.insert
    split <;> simp only [Memory.readByte_cons, ih] <;> grind

/-- A byte reads what was written to it, and a write leaves every other byte alone, whatever the store's form. -/
theorem Memory.readByte_writeByte (m : Memory) (a : Nat) (b : Byte) (a' : Nat) :
    (m.writeByte a b).readByte a' = if a' = a then b else m.readByte a' := by
  unfold Memory.writeByte
  split
  · next h => rw [Memory.readByte_erase]; simp [h, Memory.unlisted]
  · rw [Memory.readByte_insert a b _ (m.not_mem_erase a), Memory.readByte_erase]
    grind

/-! ### The canonical form -/

theorem Memory.mem_insert {a : Nat} {b : Byte} {m : Memory} {c : Host.Cell} :
    c ∈ Memory.insert a b m ↔ c = (a, b) ∨ c ∈ m := by
  induction m with
  | nil => simp [Memory.insert]
  | cons d m ih =>
    unfold Memory.insert
    split
    · simp
    · simp only [List.mem_cons, ih]; tauto

theorem Memory.wf_erase {m : Memory} (h : m.wf) (a : Nat) : (m.erase a).wf :=
  ⟨h.1.filter _, fun c hc => h.2 c (List.mem_of_mem_filter hc)⟩

theorem Memory.wf_insert {m : Memory} (h : m.wf) {a : Nat} {b : Byte} (fresh : ∀ c ∈ m, c.1 ≠ a)
    (listed : b ≠ Memory.unlisted a) : (Memory.insert a b m).wf := by
  refine ⟨?_, fun c hc => ?_⟩
  · have hp := h.1
    clear h
    induction m with
    | nil => simp [Memory.insert]
    | cons c m ih =>
      have hc := fresh c (by simp)
      have hp' := List.pairwise_cons.mp hp
      unfold Memory.insert
      split
      · next hlt =>
        refine List.pairwise_cons.mpr ⟨fun d hd => ?_, hp⟩
        rcases List.mem_cons.mp hd with rfl | hd
        · exact hlt
        · exact Nat.lt_trans hlt (hp'.1 d hd)
      · next hge =>
        refine List.pairwise_cons.mpr ⟨fun d hd => ?_, ih (fun d hd => fresh d (by simp [hd])) hp'.2⟩
        rcases Memory.mem_insert.mp hd with rfl | hd
        · simp only; omega
        · exact hp'.1 d hd
  · rcases Memory.mem_insert.mp hc with rfl | hc
    · exact listed
    · exact h.2 c hc

/-- A byte write keeps the canonical form. -/
theorem Memory.wf_writeByte {m : Memory} (h : m.wf) (a : Nat) (b : Byte) : (m.writeByte a b).wf := by
  unfold Memory.writeByte
  split
  · exact Memory.wf_erase h a
  · next hb => exact Memory.wf_insert (Memory.wf_erase h a) (m.not_mem_erase a) hb

/-- A byte write inside a store keeps it inside. -/
theorem Memory.within_writeByte {m : Memory} {n : Nat} (h : m.within n) {a : Nat} (ha : a < 4 * n) (b : Byte) :
    (m.writeByte a b).within n := by
  intro c hc
  unfold Memory.writeByte at hc
  split at hc
  · exact h c (List.mem_of_mem_filter hc)
  · rcases Memory.mem_insert.mp hc with rfl | hc
    · exact ha
    · exact h c (List.mem_of_mem_filter hc)

theorem Memory.wf_nil : Memory.wf [] := by simp [Memory.wf]

/-! ### The word port (20_memory.md R65) -/

theorem Memory.readByte_writeLane (m : Memory) (i : Nat) (be : BitVec 4) (d : Word) (lane a : Nat) :
    (m.writeLane i be d lane).readByte a =
      if a = 4 * i + lane ∧ be.getLsbD lane = true then d.extractLsb' (8 * lane) 8 else m.readByte a := by
  unfold Memory.writeLane
  split
  · next h => rw [Memory.readByte_writeByte]; simp [h]
  · next h => simp [h]

/-- A port write sets exactly the enabled lanes of its word (20_memory.md R65). -/
theorem Memory.readByte_writeLanes (m : Memory) (i : Nat) (be : BitVec 4) (d : Word) (a : Nat) :
    (m.writeLanes i be d).readByte a =
      if a / 4 = i ∧ be.getLsbD (a % 4) = true then d.extractLsb' (8 * (a % 4)) 8 else m.readByte a := by
  unfold Memory.writeLanes
  simp only [Memory.readByte_writeLane]
  have h4 : a % 4 = 0 ∨ a % 4 = 1 ∨ a % 4 = 2 ∨ a % 4 = 3 := by omega
  by_cases hi : a / 4 = i
  · rcases h4 with h | h | h | h <;>
    · have e : a = 4 * i + a % 4 := by omega
      rw [h] at e
      subst e
      simp [h, hi]
  · have n0 : a ≠ 4 * i := by omega
    have n1 : a ≠ 4 * i + 1 := by omega
    have n2 : a ≠ 4 * i + 2 := by omega
    have n3 : a ≠ 4 * i + 3 := by omega
    simp [n0, n1, n2, n3, hi]

theorem Memory.wf_writeLane {m : Memory} (h : m.wf) (i : Nat) (be : BitVec 4) (d : Word) (lane : Nat) :
    (m.writeLane i be d lane).wf := by
  unfold Memory.writeLane
  split
  · exact Memory.wf_writeByte h _ _
  · exact h

/-- A port write keeps the canonical form. -/
theorem Memory.wf_writeLanes {m : Memory} (h : m.wf) (i : Nat) (be : BitVec 4) (d : Word) : (m.writeLanes i be d).wf :=
  Memory.wf_writeLane (Memory.wf_writeLane (Memory.wf_writeLane (Memory.wf_writeLane h ..) ..) ..) ..

theorem Memory.within_writeLane {m : Memory} {n : Nat} (h : m.within n) {i : Nat} (hi : i < n) (be : BitVec 4) (d : Word)
    {lane : Nat} (hl : lane < 4) : (m.writeLane i be d lane).within n := by
  unfold Memory.writeLane
  split
  · exact Memory.within_writeByte h (by omega) _
  · exact h

/-- A port write inside a store keeps it inside. -/
theorem Memory.within_writeLanes {m : Memory} {n : Nat} (h : m.within n) {i : Nat} (hi : i < n) (be : BitVec 4) (d : Word) :
    (m.writeLanes i be d).within n :=
  Memory.within_writeLane (Memory.within_writeLane (Memory.within_writeLane (Memory.within_writeLane h hi be d
    (by decide)) hi be d (by decide)) hi be d (by decide)) hi be d (by decide)

theorem Memory.wf_writeWord {m : Memory} (h : m.wf) (i : Nat) (v : Word) : (m.writeWord i v).wf :=
  Memory.wf_writeLanes h ..

theorem Memory.within_writeWord {m : Memory} {n : Nat} (h : m.within n) {i : Nat} (hi : i < n) (v : Word) :
    (m.writeWord i v).within n := Memory.within_writeLanes h hi _ _

theorem Memory.readByte_writeWord (m : Memory) (i : Nat) (v : Word) (a : Nat) :
    (m.writeWord i v).readByte a = if a / 4 = i then v.extractLsb' (8 * (a % 4)) 8 else m.readByte a := by
  unfold Memory.writeWord
  rw [Memory.readByte_writeLanes]
  have h4 : a % 4 = 0 ∨ a % 4 = 1 ∨ a % 4 = 2 ∨ a % 4 = 3 := by omega
  have : (0b1111#4).getLsbD (a % 4) = true := by rcases h4 with h | h | h | h <;> rw [h] <;> rfl
  simp [this]

theorem Memory.word_congr {m m' : Memory} {i : Nat}
    (h : ∀ k < 4, m.readByte (4 * i + k) = m'.readByte (4 * i + k)) : m.word i = m'.word i := by
  unfold Memory.word
  have h0 := h 0 (by decide)
  rw [h 3 (by decide), h 2 (by decide), h 1 (by decide)]
  simp only [Nat.add_zero] at h0
  rw [h0]

/-- A word reads what was written to it, and a word write leaves every other word alone. -/
theorem Memory.word_writeWord (m : Memory) (i : Nat) (v : Word) (j : Nat) :
    (m.writeWord i v).word j = if j = i then v else m.word j := by
  split
  · next h =>
    subst h
    have d0 : 4 * j / 4 = j := by omega
    have d1 : (4 * j + 1) / 4 = j := by omega
    have d2 : (4 * j + 2) / 4 = j := by omega
    have d3 : (4 * j + 3) / 4 = j := by omega
    have m1 : (4 * j + 1) % 4 = 1 := by omega
    have m2 : (4 * j + 2) % 4 = 2 := by omega
    have m3 : (4 * j + 3) % 4 = 3 := by omega
    simp only [Memory.word, Memory.readByte_writeWord, d0, d1, d2, d3, m1, m2, m3, Nat.mul_mod_right, if_true]
    ext k hk
    simp only [BitVec.getElem_append, BitVec.getElem_extractLsb']
    grind
  · next h =>
    refine Memory.word_congr fun k hk => ?_
    rw [Memory.readByte_writeWord, if_neg (by omega)]

/-! ### The loader (70_reset_and_hazards.md R284) -/

theorem Memory.wf_writeWords {m : Memory} (h : m.wf) (k : Nat) (image : List Word) : (m.writeWords k image).wf := by
  induction image generalizing m k with
  | nil => exact h
  | cons w image ih => exact ih (Memory.wf_writeWord h k w) (k + 1)

theorem Memory.within_writeWords {m : Memory} {n : Nat} (h : m.within n) {k : Nat} (image : List Word)
    (fits : k + image.length ≤ n) : (m.writeWords k image).within n := by
  induction image generalizing m k with
  | nil => exact h
  | cons w image ih =>
    simp only [List.length_cons] at fits
    exact ih (Memory.within_writeWord h (by omega) w) (by omega)

@[simp] theorem Memory.word_nil (i : Nat) : Memory.word [] i = 0 := by simp [Memory.word]

/-- Word j of a store after an image is loaded from word k. -/
theorem Memory.word_writeWords (image : List Word) (m : Memory) (k j : Nat) :
    (m.writeWords k image).word j = if k ≤ j ∧ j < k + image.length then image.getD (j - k) 0 else m.word j := by
  induction image generalizing m k with
  | nil => simp [Memory.writeWords]
  | cons w image ih =>
    simp only [Memory.writeWords, ih, List.length_cons, Memory.word_writeWord]
    by_cases h : j = k
    · subst h; simp
    · by_cases h2 : k ≤ j ∧ j < k + (image.length + 1)
      · have : k + 1 ≤ j ∧ j < k + 1 + image.length := by omega
        rw [if_pos h2, if_pos this]
        have : j - k = (j - (k + 1)) + 1 := by omega
        rw [this]; simp
      · rw [if_neg h2, if_neg (by omega), if_neg h]

/-! ### Addresses -/

theorem wordIndex_eq (a : Word) : wordIndex a = a.toNat / 4 := by
  have := a.isLt
  simp only [wordIndex, BitVec.extractLsb'_toNat, Nat.shiftRight_eq_div_pow]
  omega

theorem byteLane_eq (a : Word) : byteLane a = a.toNat % 4 := by
  simp [byteLane, BitVec.extractLsb'_toNat]

/-! ### MemRead and MemWrite (20_memory.md R69, R70) -/

/-- Inside an aligned access, MemWrite stores the bytes of the value in rising order; outside it nothing changes. -/
theorem readByte_memWriteValue (m : Memory) (ea : Word) (width : Width) (v : Word)
    (aligned : ea.toNat % width.bytes = 0) (a : Nat) :
    (memWriteValue m ea width v).readByte a =
      if ea.toNat ≤ a ∧ a < ea.toNat + width.bytes then v.extractLsb' (8 * (a - ea.toNat)) 8 else m.readByte a := by
  unfold memWriteValue
  rw [Memory.readByte_writeLanes, wordIndex_eq, byteLane_eq]
  have hk : ea.toNat % 4 = 0 ∨ ea.toNat % 4 = 1 ∨ ea.toNat % 4 = 2 ∨ ea.toNat % 4 = 3 := by omega
  have ha : a % 4 = 0 ∨ a % 4 = 1 ∨ a % 4 = 2 ∨ a % 4 = 3 := by omega
  unfold laneEnables
  rw [byteLane_eq]
  have lanes : ∀ k j : Fin 4, k.val % width.bytes = 0 →
      (((1#4 <<< width.bytes) - 1#4) <<< k.val).getLsbD j.val = decide (k.val ≤ j.val ∧ j.val < k.val + width.bytes) := by
    cases width <;> decide
  have hw : width.bytes = 1 ∨ width.bytes = 2 ∨ width.bytes = 4 := by cases width <;> decide
  have hmod : ea.toNat % 4 % width.bytes = 0 := by rcases hw with h | h | h <;> rw [h] at aligned ⊢ <;> omega
  rw [lanes ⟨ea.toNat % 4, by omega⟩ ⟨a % 4, by omega⟩ hmod]
  simp only [decide_eq_true_eq]
  by_cases hin : ea.toNat ≤ a ∧ a < ea.toNat + width.bytes
  · have hcond : a / 4 = ea.toNat / 4 ∧ ea.toNat % 4 ≤ a % 4 ∧ a % 4 < ea.toNat % 4 + width.bytes := by
      rcases hw with h | h | h <;> rw [h] at aligned hin ⊢ <;> omega
    rw [if_pos hcond, if_pos hin]
    have hd : a - ea.toNat = a % 4 - ea.toNat % 4 := by omega
    rw [hd]
    ext k hk'
    have hle : ea.toNat % 4 ≤ a % 4 := hcond.2.1
    simp only [BitVec.getElem_extractLsb', BitVec.getLsbD_shiftLeft]
    have h1 : 8 * (a % 4) + k < 32 := by omega
    have h2 : ¬ 8 * (a % 4) + k < 8 * (ea.toNat % 4) := by omega
    have h3 : 8 * (a % 4) + k - 8 * (ea.toNat % 4) = 8 * (a % 4 - ea.toNat % 4) + k := by omega
    simp [h1, h2, h3]
  · rw [if_neg (by rcases hw with h | h | h <;> rw [h] at aligned hin ⊢ <;> omega), if_neg hin]

theorem wf_memWriteValue {m : Memory} (h : m.wf) (ea : Word) (width : Width) (v : Word) :
    (memWriteValue m ea width v).wf := Memory.wf_writeLanes h ..

theorem within_memWriteValue {m : Memory} {n : Nat} (h : m.within n) {ea : Word} (hea : wordIndex ea < n) (width : Width)
    (v : Word) : (memWriteValue m ea width v).within n := Memory.within_writeLanes h hea _ _

/-- Bit `8k + j` of word `i` is bit `j` of the byte at `4i + k` (20_memory.md R66). -/
theorem Memory.getLsbD_word (m : Memory) (i n : Nat) (hn : n < 32) :
    (m.word i).getLsbD n = (m.readByte (4 * i + n / 8)).getLsbD (n % 8) := by
  have h4 : n / 8 = 0 ∨ n / 8 = 1 ∨ n / 8 = 2 ∨ n / 8 = 3 := by omega
  unfold Memory.word
  simp only [BitVec.getLsbD_append]
  rcases h4 with h | h | h | h
  · have e : n % 8 = n := by omega
    have a1 : n < 8 := by omega
    simp only [h, a1, e, ↓reduceIte, Nat.add_zero]
  · have e : n - 8 = n % 8 := by omega
    have a1 : ¬ n < 8 := by omega
    have a2 : n % 8 < 8 := by omega
    simp only [h, a1, a2, e, ↓reduceIte]
  · have e : n - 8 - 8 = n % 8 := by omega
    have a1 : ¬ n < 8 := by omega
    have a2 : ¬ n - 8 < 8 := by omega
    have a3 : n % 8 < 8 := by omega
    simp only [h, a1, a2, a3, e, ↓reduceIte]
  · have e : n - 8 - 8 - 8 = n % 8 := by omega
    have a1 : ¬ n < 8 := by omega
    have a2 : ¬ n - 8 < 8 := by omega
    have a3 : ¬ n - 8 - 8 < 8 := by omega
    simp only [h, a1, a2, a3, e, ↓reduceIte]

/-- Inside an aligned access, bit `n` of MemRead's value is a bit of the byte at `ea + n / 8`; above it the value is 0. -/
theorem getLsbD_memReadValue (m : Memory) (ea : Word) (width : Width) (aligned : ea.toNat % width.bytes = 0) (n : Nat) :
    (memReadValue m ea width).getLsbD n =
      (decide (n < 8 * width.bytes) && (m.readByte (ea.toNat + n / 8)).getLsbD (n % 8)) := by
  unfold memReadValue zext
  rw [wordIndex_eq, byteLane_eq]
  have hw : width.bytes = 1 ∨ width.bytes = 2 ∨ width.bytes = 4 := by cases width <;> decide
  simp only [BitVec.getLsbD_setWidth, BitVec.getLsbD_ushiftRight]
  by_cases hn : n < 8 * width.bytes
  · have h32 : n < 32 := by omega
    have hlt : 8 * (ea.toNat % 4) + n < 32 := by
      rcases hw with h | h | h <;> rw [h] at aligned hn <;> omega
    rw [Memory.getLsbD_word _ _ _ hlt]
    have e1 : 4 * (ea.toNat / 4) + (8 * (ea.toNat % 4) + n) / 8 = ea.toNat + n / 8 := by omega
    have e2 : (8 * (ea.toNat % 4) + n) % 8 = n % 8 := by omega
    rw [e1, e2]
    simp [hn, h32]
  · simp [hn]

end Sys2Proof.Machine
end

