-- ==== Sys2Proof/Laws/PerInstr.lean ====
section
/-! SUPPORT. Facts made per instruction, one lemma per constructor of Instr: the word of an instruction selects its own row
of opcode_table.json (30_encoding.md, opening paragraph), whatever its operands. -/
namespace Sys2Proof.Laws

/-- The encoding of an instruction, masked as its row says, is the row's match. -/
def EncodeSelectsRow.Statement : Instr → Prop := fun i => i.tag.selects (encode i)

namespace EncodeSelectsRow

theorem add (rd : Reg) (rs1 : Reg) (rs2 : Reg) :
    Statement (.add rd rs1 rs2) := (encodeR_and_mask ..).trans rfl
theorem sub (rd : Reg) (rs1 : Reg) (rs2 : Reg) :
    Statement (.sub rd rs1 rs2) := (encodeR_and_mask ..).trans rfl
theorem sll (rd : Reg) (rs1 : Reg) (rs2 : Reg) :
    Statement (.sll rd rs1 rs2) := (encodeR_and_mask ..).trans rfl
theorem slt (rd : Reg) (rs1 : Reg) (rs2 : Reg) :
    Statement (.slt rd rs1 rs2) := (encodeR_and_mask ..).trans rfl
theorem sltu (rd : Reg) (rs1 : Reg) (rs2 : Reg) :
    Statement (.sltu rd rs1 rs2) := (encodeR_and_mask ..).trans rfl
theorem xor (rd : Reg) (rs1 : Reg) (rs2 : Reg) :
    Statement (.xor rd rs1 rs2) := (encodeR_and_mask ..).trans rfl
theorem srl (rd : Reg) (rs1 : Reg) (rs2 : Reg) :
    Statement (.srl rd rs1 rs2) := (encodeR_and_mask ..).trans rfl
theorem sra (rd : Reg) (rs1 : Reg) (rs2 : Reg) :
    Statement (.sra rd rs1 rs2) := (encodeR_and_mask ..).trans rfl
theorem or (rd : Reg) (rs1 : Reg) (rs2 : Reg) :
    Statement (.or rd rs1 rs2) := (encodeR_and_mask ..).trans rfl
theorem and (rd : Reg) (rs1 : Reg) (rs2 : Reg) :
    Statement (.and rd rs1 rs2) := (encodeR_and_mask ..).trans rfl
theorem addi (rd : Reg) (rs1 : Reg) (imm : BitVec 12) :
    Statement (.addi rd rs1 imm) := (encodeI_and_mask ..).trans rfl
theorem slti (rd : Reg) (rs1 : Reg) (imm : BitVec 12) :
    Statement (.slti rd rs1 imm) := (encodeI_and_mask ..).trans rfl
theorem sltiu (rd : Reg) (rs1 : Reg) (imm : BitVec 12) :
    Statement (.sltiu rd rs1 imm) := (encodeI_and_mask ..).trans rfl
theorem xori (rd : Reg) (rs1 : Reg) (imm : BitVec 12) :
    Statement (.xori rd rs1 imm) := (encodeI_and_mask ..).trans rfl
theorem ori (rd : Reg) (rs1 : Reg) (imm : BitVec 12) :
    Statement (.ori rd rs1 imm) := (encodeI_and_mask ..).trans rfl
theorem andi (rd : Reg) (rs1 : Reg) (imm : BitVec 12) :
    Statement (.andi rd rs1 imm) := (encodeI_and_mask ..).trans rfl
theorem slli (rd : Reg) (rs1 : Reg) (shamt : BitVec 5) :
    Statement (.slli rd rs1 shamt) := (encodeShift_and_mask ..).trans rfl
theorem srli (rd : Reg) (rs1 : Reg) (shamt : BitVec 5) :
    Statement (.srli rd rs1 shamt) := (encodeShift_and_mask ..).trans rfl
theorem srai (rd : Reg) (rs1 : Reg) (shamt : BitVec 5) :
    Statement (.srai rd rs1 shamt) := (encodeShift_and_mask ..).trans rfl
theorem lui (rd : Reg) (imm : BitVec 20) :
    Statement (.lui rd imm) := (encodeU_and_mask ..).trans rfl
theorem auipc (rd : Reg) (imm : BitVec 20) :
    Statement (.auipc rd imm) := (encodeU_and_mask ..).trans rfl
theorem jal (rd : Reg) (offset : BitVec 21) :
    Statement (.jal rd offset) := (encodeJ_and_mask ..).trans rfl
theorem jalr (rd : Reg) (rs1 : Reg) (imm : BitVec 12) :
    Statement (.jalr rd rs1 imm) := (encodeI_and_mask ..).trans rfl
theorem beq (rs1 : Reg) (rs2 : Reg) (offset : BitVec 13) :
    Statement (.beq rs1 rs2 offset) := (encodeB_and_mask ..).trans rfl
theorem bne (rs1 : Reg) (rs2 : Reg) (offset : BitVec 13) :
    Statement (.bne rs1 rs2 offset) := (encodeB_and_mask ..).trans rfl
theorem blt (rs1 : Reg) (rs2 : Reg) (offset : BitVec 13) :
    Statement (.blt rs1 rs2 offset) := (encodeB_and_mask ..).trans rfl
theorem bge (rs1 : Reg) (rs2 : Reg) (offset : BitVec 13) :
    Statement (.bge rs1 rs2 offset) := (encodeB_and_mask ..).trans rfl
theorem bltu (rs1 : Reg) (rs2 : Reg) (offset : BitVec 13) :
    Statement (.bltu rs1 rs2 offset) := (encodeB_and_mask ..).trans rfl
theorem bgeu (rs1 : Reg) (rs2 : Reg) (offset : BitVec 13) :
    Statement (.bgeu rs1 rs2 offset) := (encodeB_and_mask ..).trans rfl
theorem lb (rd : Reg) (rs1 : Reg) (imm : BitVec 12) :
    Statement (.lb rd rs1 imm) := (encodeI_and_mask ..).trans rfl
theorem lh (rd : Reg) (rs1 : Reg) (imm : BitVec 12) :
    Statement (.lh rd rs1 imm) := (encodeI_and_mask ..).trans rfl
theorem lw (rd : Reg) (rs1 : Reg) (imm : BitVec 12) :
    Statement (.lw rd rs1 imm) := (encodeI_and_mask ..).trans rfl
theorem lbu (rd : Reg) (rs1 : Reg) (imm : BitVec 12) :
    Statement (.lbu rd rs1 imm) := (encodeI_and_mask ..).trans rfl
theorem lhu (rd : Reg) (rs1 : Reg) (imm : BitVec 12) :
    Statement (.lhu rd rs1 imm) := (encodeI_and_mask ..).trans rfl
theorem sb (rs2 : Reg) (rs1 : Reg) (imm : BitVec 12) :
    Statement (.sb rs2 rs1 imm) := (encodeS_and_mask ..).trans rfl
theorem sh (rs2 : Reg) (rs1 : Reg) (imm : BitVec 12) :
    Statement (.sh rs2 rs1 imm) := (encodeS_and_mask ..).trans rfl
theorem sw (rs2 : Reg) (rs1 : Reg) (imm : BitVec 12) :
    Statement (.sw rs2 rs1 imm) := (encodeS_and_mask ..).trans rfl

end EncodeSelectsRow

end Sys2Proof.Laws
end

