-- ==== Sys2Proof/Laws/Step.lean ====
section
/-! SUPPORT. Say once what each shared operation, each instruction and a step can do. -/
namespace Sys2Proof.Machine

/-! ### Data access checks (20_memory.md R67, R68) -/

theorem checkAccess_eq_none {kind : AccessKind} {width : Width} {ea : Word} {s : State} :
    checkAccess kind width ea s = none ↔ ea.toNat % width.bytes = 0 ∧ ea.toNat / 4 < s.cfg.dmemWords := by
  unfold checkAccess
  rw [wordIndex_eq]
  split <;> [simp_all; split <;> simp_all]

theorem checkAccess_misaligned {kind : AccessKind} {width : Width} {ea : Word} {s : State}
    (h : ea.toNat % width.bytes ≠ 0) : checkAccess kind width ea s = some (.misalignedAccess kind ea) := if_pos h

theorem checkAccess_outOfRange {kind : AccessKind} {width : Width} {ea : Word} {s : State}
    (aligned : ea.toNat % width.bytes = 0) (h : s.cfg.dmemWords ≤ ea.toNat / 4) :
    checkAccess kind width ea s = some (.addressOutOfRange kind ea) := by
  unfold checkAccess
  rw [wordIndex_eq, if_neg (by simpa using aligned), if_neg (by omega)]

/-! ### Fetch (20_memory.md R64) -/

theorem ifetch_eq_some {s : State} {w : Word} :
    ifetch s = some w ↔ s.pc.toNat / 4 < s.cfg.imemWords ∧ s.imem.word (s.pc.toNat / 4) = w := by
  unfold ifetch
  rw [wordIndex_eq]
  split <;> simp_all

theorem ifetch_eq_none {s : State} : ifetch s = none ↔ s.cfg.imemWords ≤ s.pc.toNat / 4 := by
  unfold ifetch
  rw [wordIndex_eq]
  split <;> simp_all

/-! ### Address arithmetic and shift amounts -/

/-- A base plus a sign-extended offset is the exact sum modulo 2^32 (00_scope.md R9). -/
theorem toNat_add_sext {n : Nat} (a : Word) (v : BitVec n) (hn : n ≤ 32) : (a + sext n v).toNat = wrapSum a v.toInt := by
  unfold wrapSum
  rw [← toInt_sext v hn]
  have := BitVec.toInt_eq_toNat_cond (sext n v)
  rw [BitVec.toNat_add, this]
  have := (sext n v).isLt; have := a.isLt
  split <;> omega

theorem toNat_add_four (a : Word) : (a + 4).toNat = wrapSum a 4 := by
  unfold wrapSum
  rw [BitVec.toNat_add]
  have := a.isLt
  simp
  omega

theorem shiftAmount_eq (b : Word) : shiftAmount b = b.toNat % 32 := by
  simp [shiftAmount, BitVec.extractLsb'_toNat]

/-! ### The end of an instruction -/

@[simp] theorem finish_done (i : Instr) (s : State) (e : Effect) : finish i s (.done e) = .next (s.commit e) := rfl
@[simp] theorem finish_raise (i : Instr) (s : State) (c : Cause) :
    finish i s (.raise c) = .next (takeFault c (some (encode i)) s) := rfl

theorem finish_ne_fault (i : Instr) (s : State) (b : Behaviour) (r : Fault) : finish i s b ≠ .fault r := by
  cases b <;> simp

theorem finish_ne_refused (i : Instr) (s : State) (b : Behaviour) (r : Refusal) : finish i s b ≠ .refused r := by
  cases b <;> simp

/-! ### Behaviours -/

/-- An effect that a step may commit: an aligned redirect, a store inside the data store. -/
structure Effect.Ok (e : Effect) (s : State) : Prop where
  redirect : ∀ t, e.redirect = some t → t.toNat % 4 = 0
  memWrite : ∀ w, e.memWrite = some w → w.ea.toNat % w.width.bytes = 0 ∧ w.ea.toNat / 4 < s.cfg.dmemWords

/-- A cause that an instruction raises of its own: never a fetch or a decode fault (60_exceptions.md R251). -/
def Cause.OfExecution : Cause → Prop
  | .instructionAddressMisaligned target => target.toNat % 4 ≠ 0
  | .misalignedAccess _ _ => True
  | .addressOutOfRange _ _ => True
  | .fetchOutOfRange _ => False
  | .illegalInstruction _ => False

/-- What a behaviour may answer. -/
def Behaviour.Ok (b : Behaviour) (s : State) : Prop :=
  match b with
  | .done e => e.Ok s
  | .raise c => c.OfExecution

theorem Effect.ok_writeRd (rd : Reg) (v : Word) (s : State) : (Effect.writeRd rd v).Ok s :=
  ⟨by simp, by simp⟩

theorem aluBehaviour_ok (op : AluOp) (rd : Reg) (a b : Word) (s : State) : (aluBehaviour op rd a b).Ok s :=
  Effect.ok_writeRd ..

theorem targetBits_eq_zero {t : Word} : t.extractLsb' 0 2 = 0#2 ↔ t.toNat % 4 = 0 := by
  rw [← BitVec.toNat_inj, BitVec.extractLsb'_toNat]
  simp

theorem transfer_ok (t : Word) (rw : Option (Reg × Word)) (s : State) : (transfer t rw).Ok s := by
  unfold transfer
  split
  · next h =>
    refine ⟨fun t' ht => ?_, by simp⟩
    obtain rfl : t = t' := by simpa using ht
    exact targetBits_eq_zero.mp h
  · next h => exact fun h' => h (targetBits_eq_zero.mpr h')

theorem transfer_aligned {t : Word} (h : t.toNat % 4 = 0) (rw : Option (Reg × Word)) :
    transfer t rw = .done { rdWrite := rw, memWrite := none, redirect := some t } :=
  if_pos (targetBits_eq_zero.mpr h)

theorem transfer_misaligned {t : Word} (h : t.toNat % 4 ≠ 0) (rw : Option (Reg × Word)) :
    transfer t rw = .raise (.instructionAddressMisaligned t) :=
  if_neg (fun h' => h (targetBits_eq_zero.mp h'))

theorem branch_ok (taken : Bool) (t : Word) (s : State) : (branch taken t).Ok s := by
  cases taken
  · exact ⟨by simp, by simp⟩
  · exact transfer_ok t none s

theorem loadBehaviour_ok (form : LoadForm) (rd : Reg) (ea : Word) (s : State) : (loadBehaviour form rd ea s).Ok s := by
  unfold loadBehaviour
  split
  · next c h =>
    unfold checkAccess at h
    split at h <;> [skip; split at h] <;> simp_all [Behaviour.Ok] <;> subst h <;> trivial
  · exact Effect.ok_writeRd ..

theorem storeBehaviour_ok (width : Width) (v ea : Word) (s : State) : (storeBehaviour width v ea s).Ok s := by
  unfold storeBehaviour
  split
  · next c h =>
    unfold checkAccess at h
    split at h <;> [skip; split at h] <;> simp_all [Behaviour.Ok] <;> subst h <;> trivial
  · next h =>
    refine ⟨by simp, fun w hw => ?_⟩
    obtain rfl := Option.some.inj hw
    exact checkAccess_eq_none.mp h

/-! ### What the comparator decides (41_control_transfer.md R195) -/

theorem cmp_eq {a b : Word} : cmp .eq a b = true ↔ a = b := by simp [cmp]
theorem cmp_ne {a b : Word} : cmp .ne a b = true ↔ a ≠ b := by simp [cmp]
theorem cmp_lt {a b : Word} : cmp .lt a b = true ↔ a.toInt < b.toInt := by simp [cmp, BitVec.slt]
theorem cmp_ge {a b : Word} : cmp .ge a b = true ↔ b.toInt ≤ a.toInt := by simp [cmp, BitVec.slt]
theorem cmp_ltu {a b : Word} : cmp .ltu a b = true ↔ a.toNat < b.toNat := by simp [cmp, BitVec.ult]
theorem cmp_geu {a b : Word} : cmp .geu a b = true ↔ b.toNat ≤ a.toNat := by simp [cmp, BitVec.ult]

/-- The effect of an instruction writes the register, takes the redirect and stores the bytes that the tables of Safety
name. -/
structure Effect.Of (e : Effect) (i : Instr) (s : State) : Prop where
  rd : e.rdWrite.map Prod.fst = rdOf i
  redirect : e.redirect = redirectOf s i
  span : e.memWrite.map (fun w => (w.ea.toNat, w.width.bytes)) = storeSpan s i

/-- A behaviour whose effect, if it has one, is of its instruction. -/
def Behaviour.Of (b : Behaviour) (i : Instr) (s : State) : Prop :=
  match b with
  | .done e => e.Of i s
  | .raise _ => True

theorem transfer_of {t : Word} {rw : Option (Reg × Word)} {i : Instr} {s : State} (rd : rw.map Prod.fst = rdOf i)
    (redirect : redirectOf s i = some t) (span : storeSpan s i = none) : (transfer t rw).Of i s := by
  unfold transfer
  split
  · exact ⟨rd, redirect.symm, span.symm⟩
  · trivial

theorem branch_of {taken : Bool} {t : Word} {i : Instr} {s : State} (rd : rdOf i = none)
    (redirect : redirectOf s i = if taken = true then some t else none) (span : storeSpan s i = none) :
    (branch taken t).Of i s := by
  cases taken
  · exact ⟨rd.symm, redirect.symm, span.symm⟩
  · exact transfer_of rd.symm redirect span

theorem loadBehaviour_of {form : LoadForm} {rd : Reg} {ea : Word} {i : Instr} {s : State} (hrd : rdOf i = some rd)
    (redirect : redirectOf s i = none) (span : storeSpan s i = none) : (loadBehaviour form rd ea s).Of i s := by
  unfold loadBehaviour
  split
  · trivial
  · exact ⟨hrd.symm, redirect.symm, span.symm⟩

theorem storeBehaviour_of {width : Width} {v ea : Word} {i : Instr} {s : State} (hrd : rdOf i = none)
    (redirect : redirectOf s i = none) (span : storeSpan s i = some (ea.toNat, width.bytes)) :
    (storeBehaviour width v ea s).Of i s := by
  unfold storeBehaviour
  split
  · trivial
  · exact ⟨hrd.symm, redirect.symm, span.symm⟩

/-- What an instruction can do: end with an effect of its own that the block may commit, or raise a fault of its own. -/
theorem exec_eq_finish (i : Instr) (s : State) : ∃ b : Behaviour, exec i s = finish i s b ∧ b.Ok s ∧ b.Of i s := by
  cases i
  case beq => exact ⟨_, rfl, branch_ok .., branch_of rfl (by simp only [redirectOf, cmp_eq]) rfl⟩
  case bne => exact ⟨_, rfl, branch_ok .., branch_of rfl (by simp only [redirectOf, cmp_ne]) rfl⟩
  case blt => exact ⟨_, rfl, branch_ok .., branch_of rfl (by simp only [redirectOf, cmp_lt]) rfl⟩
  case bge => exact ⟨_, rfl, branch_ok .., branch_of rfl (by simp only [redirectOf, cmp_ge]) rfl⟩
  case bltu => exact ⟨_, rfl, branch_ok .., branch_of rfl (by simp only [redirectOf, cmp_ltu]) rfl⟩
  case bgeu => exact ⟨_, rfl, branch_ok .., branch_of rfl (by simp only [redirectOf, cmp_geu]) rfl⟩
  all_goals first
    | exact ⟨_, rfl, aluBehaviour_ok .., ⟨rfl, rfl, rfl⟩⟩
    | exact ⟨_, rfl, transfer_ok .., transfer_of rfl rfl rfl⟩
    | exact ⟨_, rfl, loadBehaviour_ok .., loadBehaviour_of rfl rfl rfl⟩
    | exact ⟨_, rfl, storeBehaviour_ok .., storeBehaviour_of rfl rfl rfl⟩

/-- What a step that answers a next state did, from a running state. -/
theorem step_cases {s t : State} (h : step s = .next t) :
    s.run = .running ∧
      ((ifetch s = none ∧ t = takeFault (.fetchOutOfRange s.pc) none s) ∨
        ∃ w, ifetch s = some w ∧
          ((∃ reason, decode s.cfg.extraOpcodeTags w = .illegal reason ∧
              t = takeFault (.illegalInstruction reason) (some w) s) ∨
            ∃ i, decode s.cfg.extraOpcodeTags w = .instr i ∧ exec i s = .next t)) := by
  unfold step at h
  split at h
  · exact absurd h (by simp)
  · next hr =>
    refine ⟨hr, ?_⟩
    split at h
    · next hf => exact .inl ⟨hf, by simpa using h.symm⟩
    · next w hf =>
      refine .inr ⟨w, hf, ?_⟩
      split at h
      · next reason hd => exact .inl ⟨reason, hd, by simpa using h.symm⟩
      · next i hd => exact .inr ⟨i, hd, h⟩

/-- What an instruction that answers a next state did. -/
theorem exec_cases {i : Instr} {s t : State} (h : exec i s = .next t) :
    (∃ e : Effect, e.Ok s ∧ e.Of i s ∧ t = s.commit e) ∨
      ∃ c : Cause, c.OfExecution ∧ t = takeFault c (some (encode i)) s := by
  obtain ⟨b, hb, ok, of⟩ := exec_eq_finish i s
  rw [hb] at h
  cases b with
  | done e => exact .inl ⟨e, ok, of, by simpa using h.symm⟩
  | raise c => exact .inr ⟨c, ok, by simpa using h.symm⟩

end Sys2Proof.Machine
end

