-- ==== Sys2Proof/Tests/Slice0.lean ====
section
/-! SUPPORT. Tests: the checks of WellFormed, words written out from the spec's encodings, the spec's own vectors
(95_test_vectors.md) one step each, and for every statement with hypotheses a concrete state that meets them. Expected
values come from the spec's tables, never from the model. -/
namespace Sys2Proof.Tests
open Sys2Proof.Machine

/-! ### WellFormed: each check refuses an ill-formed term -/

theorem test_wf_refuses_odd_branch_offsets : ∀ mk ∈ [Instr.beq, .bne, .blt, .bge, .bltu, .bgeu],
    (mk 1 2 7).wf = false ∧ (mk 1 2 0x1FFF).wf = false ∧ (mk 1 2 8).wf = true := by decide

theorem test_wf_refuses_odd_jal_offset :
    (Instr.jal 1 7).wf = false ∧ (Instr.jal 1 0x1FFFFF).wf = false ∧ (Instr.jal 1 8).wf = true := by decide

/-! ### Decoding: every constructor, by a word written out field by field -/

/-- R-type words, field by field (30_encoding.md R94, R114): rd 19, rs1 6, rs2 25. -/
theorem test_decode_op :
    decode [] 0b0000000_11001_00110_000_10011_0110011#32 = .instr (.add 19 6 25) ∧
    decode [] 0b0100000_11001_00110_000_10011_0110011#32 = .instr (.sub 19 6 25) ∧
    decode [] 0b0000000_11001_00110_001_10011_0110011#32 = .instr (.sll 19 6 25) ∧
    decode [] 0b0000000_11001_00110_010_10011_0110011#32 = .instr (.slt 19 6 25) ∧
    decode [] 0b0000000_11001_00110_011_10011_0110011#32 = .instr (.sltu 19 6 25) ∧
    decode [] 0b0000000_11001_00110_100_10011_0110011#32 = .instr (.xor 19 6 25) ∧
    decode [] 0b0000000_11001_00110_101_10011_0110011#32 = .instr (.srl 19 6 25) ∧
    decode [] 0b0100000_11001_00110_101_10011_0110011#32 = .instr (.sra 19 6 25) ∧
    decode [] 0b0000000_11001_00110_110_10011_0110011#32 = .instr (.or 19 6 25) ∧
    decode [] 0b0000000_11001_00110_111_10011_0110011#32 = .instr (.and 19 6 25) := by decide

/-- I-type words (30_encoding.md R95, R113): rd 19, rs1 6, immediate 0xA5C; shift amount 25 (R119). -/
theorem test_decode_op_imm :
    decode [] 0b101001011100_00110_000_10011_0010011#32 = .instr (.addi 19 6 0xA5C) ∧
    decode [] 0b101001011100_00110_010_10011_0010011#32 = .instr (.slti 19 6 0xA5C) ∧
    decode [] 0b101001011100_00110_011_10011_0010011#32 = .instr (.sltiu 19 6 0xA5C) ∧
    decode [] 0b101001011100_00110_100_10011_0010011#32 = .instr (.xori 19 6 0xA5C) ∧
    decode [] 0b101001011100_00110_110_10011_0010011#32 = .instr (.ori 19 6 0xA5C) ∧
    decode [] 0b101001011100_00110_111_10011_0010011#32 = .instr (.andi 19 6 0xA5C) ∧
    decode [] 0b0000000_11001_00110_001_10011_0010011#32 = .instr (.slli 19 6 25) ∧
    decode [] 0b0000000_11001_00110_101_10011_0010011#32 = .instr (.srli 19 6 25) ∧
    decode [] 0b0100000_11001_00110_101_10011_0010011#32 = .instr (.srai 19 6 25) := by decide

/-- U-type words (30_encoding.md R98, R112): rd 19, immediate 0x9A5C3. -/
theorem test_decode_upper :
    decode [] 0b10011010010111000011_10011_0110111#32 = .instr (.lui 19 0x9A5C3) ∧
    decode [] 0b10011010010111000011_10011_0010111#32 = .instr (.auipc 19 0x9A5C3) := by decide

/-- J-type and JALR words (30_encoding.md R99, R104, R120): rd 19, offset 0x0A5C3A; rd 19, rs1 6, immediate 0xA5C. -/
theorem test_decode_jumps :
    decode [] 0b01000011101110100101_10011_1101111#32 = .instr (.jal 19 0x0A5C3A) ∧
    decode [] 0b101001011100_00110_000_10011_1100111#32 = .instr (.jalr 19 6 0xA5C) := by decide

/-- B-type words (30_encoding.md R97, R102, R117): rs1 6, rs2 25, offset 0x0A5C, and once its sign bit. -/
theorem test_decode_branches :
    decode [] 0b0010010_11001_00110_000_11101_1100011#32 = .instr (.beq 6 25 0x0A5C) ∧
    decode [] 0b0010010_11001_00110_001_11101_1100011#32 = .instr (.bne 6 25 0x0A5C) ∧
    decode [] 0b0010010_11001_00110_100_11101_1100011#32 = .instr (.blt 6 25 0x0A5C) ∧
    decode [] 0b0010010_11001_00110_101_11101_1100011#32 = .instr (.bge 6 25 0x0A5C) ∧
    decode [] 0b0010010_11001_00110_110_11101_1100011#32 = .instr (.bltu 6 25 0x0A5C) ∧
    decode [] 0b0010010_11001_00110_111_11101_1100011#32 = .instr (.bgeu 6 25 0x0A5C) ∧
    decode [] 0b1000000_11001_00110_000_00010_1100011#32 = .instr (.beq 6 25 0x1002) := by decide

/-- Load words (30_encoding.md R95, R115): rd 19, rs1 6, immediate 0xA5C. -/
theorem test_decode_loads :
    decode [] 0b101001011100_00110_000_10011_0000011#32 = .instr (.lb 19 6 0xA5C) ∧
    decode [] 0b101001011100_00110_001_10011_0000011#32 = .instr (.lh 19 6 0xA5C) ∧
    decode [] 0b101001011100_00110_010_10011_0000011#32 = .instr (.lw 19 6 0xA5C) ∧
    decode [] 0b101001011100_00110_100_10011_0000011#32 = .instr (.lbu 19 6 0xA5C) ∧
    decode [] 0b101001011100_00110_101_10011_0000011#32 = .instr (.lhu 19 6 0xA5C) := by decide

/-- S-type words (30_encoding.md R96, R116): rs2 25, rs1 6, immediate 0xA5C. -/
theorem test_decode_stores :
    decode [] 0b1010010_11001_00110_000_11100_0100011#32 = .instr (.sb 25 6 0xA5C) ∧
    decode [] 0b1010010_11001_00110_001_11100_0100011#32 = .instr (.sh 25 6 0xA5C) ∧
    decode [] 0b1010010_11001_00110_010_11100_0100011#32 = .instr (.sw 25 6 0xA5C) := by decide

/-- The document's own word 0x74348A7E under the J decoder (95_test_vectors.md L1-2). -/
theorem test_decodeJ_total : decodeJ 0x74348A7E#32 =
    { rd := 20, imm19_12 := 0x48, imm11 := 1, imm10_1 := 0x3A1, imm20 := 0 } ∧ immJ 0x74348A7E#32 = 0x00048F42#32 := by
  decide

/-- 95_test_vectors.md L2-1, rows 2, 6 and 7. -/
theorem test_immediates :
    (immI 0x80000000#32, immS 0x80000F80#32, immB 0x00000080#32, immB 0x80000F80#32, immU 0x80000F80#32, immJ 0x80000000#32)
      = (0xFFFFF800#32, 0xFFFFF81F#32, 0x00000800#32, 0xFFFFF81E#32, 0x80000000#32, 0xFFF00000#32) := by decide

/-- 95_test_vectors.md L1-1. -/
theorem test_extensions :
    (sext 8 0x000001FF#32, sext 8 0x0000007F#32, sext 13 0x00001000#32, sext 21 0x00100000#32, sext 1 0x00000001#32,
      sext 32 0x80000000#32, zext 8 0x000001FF#32, zext 32 0x80000000#32)
      = (0xFFFFFFFF#32, 0x0000007F#32, 0xFFFFF000#32, 0xFFF00000#32, 0xFFFFFFFF#32, 0x80000000#32, 0x000000FF#32,
        0x80000000#32) := by decide

/-- Every field of the dispatch output, read or not (30_encoding.md R124, R125): rd of SW -4, rs2 of SRAI 4 and its immI, the
rs2 of an ADDI, the fields of a JAL -16. -/
theorem test_dispatch_output :
    [0xFE20AE23#32, 0x4040D193#32, 0x80008193#32, 0xFF1FF0EF#32].map (dispatch []) =
      [.op { tag := .sw, rd := 0b11100, rs1 := 1, rs2 := 2, imm := 0xFFFFFFFC#32, shamt := 0b00010 },
       .op { tag := .srai, rd := 3, rs1 := 1, rs2 := 4, imm := 0x00000404#32, shamt := 4 },
       .op { tag := .addi, rd := 3, rs1 := 1, rs2 := 0, imm := 0xFFFFF800#32, shamt := 0 },
       .op { tag := .jal, rd := 1, rs1 := 0b11111, rs2 := 0b10001, imm := 0xFFFFFFF0#32, shamt := 0b10001 }] := by decide

/-- 95_test_vectors.md L2-2: words whose funct fields match no row. -/
theorem test_illegal_unknown_funct : [0x022081B3#32, 0x4020C1B3#32, 0x402091B3#32, 0x40309193#32, 0x0230D193#32,
    0x6030D193#32, 0x0000B183#32, 0x0020B023#32, 0x0020A463#32, 0x00009067#32].map (decode []) =
    List.replicate 10 (.illegal .unknownFunct) := by decide

/-- 95_test_vectors.md L2-2: words of SYSTEM, and words of no named opcode. -/
theorem test_illegal_opcode :
    [0x00000073#32, 0x00100073#32, 0x30200073#32, 0xC0002073#32].map (decode []) =
      List.replicate 4 (.illegal .unimplemented) ∧
    [0x00000000#32, 0xFFFFFFFF#32, 0x0000001B#32, 0x0000002F#32, 0x0FF0000F#32].map (decode []) =
      List.replicate 5 (.illegal .unknownOpcode) ∧
    decode [0x0F#7] 0x0FF0000F#32 = .illegal .unimplemented := by decide

/-- A row's word, zeros in its operand fields, is the row's instruction. -/
theorem test_decodeTableWord :
    decodeTableWord 32 0x40005033 = some (.sra 0 0 0) ∧ decodeTableWord 32 0x00002023 = some (.sw 0 0 0) ∧
      decodeTableWord 32 0x00000073 = none := by decide

/-! ### One step of each instruction: the vectors of 95_test_vectors.md (IMEM_WORDS is large enough, DMEM_WORDS = 64) -/

/-- A state with these registers, this pc and these data words. -/
def start (pc : Word) (regs : List (Reg × Word)) (data : List (Nat × Word)) : State :=
  { regs.foldl (fun s r => s.setX r.1 r.2) State.reset with
    pc := pc
    dmem := data.foldl (fun m d => m.writeWord d.1 d.2) [] }

/-- The state after the word `w`, placed where `s` fetches, has run. -/
def after (w : Word) (s : State) : Option State :=
  match Machine.step (s.placeWord w) with
  | .next t => some t
  | .fault _ => none
  | .refused _ => none

/-- A register and the pc after a step that did not halt. -/
def regAfter (r : Reg) (w : Word) (s : State) : Option (Word × Word) :=
  (after w s).bind fun t => if t.run = .running then some (t.x r, t.pc) else none

/-- A data word and the pc after a step that did not halt. -/
def dataAfter (i : Nat) (w : Word) (s : State) : Option (Word × Word) :=
  (after w s).bind fun t => if t.run = .running then some (t.dmem.word i, t.pc) else none

/-- The pc after a step that did not halt. -/
def pcAfter (w : Word) (s : State) : Option Word :=
  (after w s).bind fun t => if t.run = .running then some t.pc else none

/-- The code, the pc and the address of the fault that halted a step which changed nothing else. -/
def faultAfter (w : Word) (s : State) : Option (FaultCode × Word × Word) :=
  (after w s).bind fun t =>
    match t.run with
    | .running => none
    | .halted record =>
      if t = { s.placeWord w with run := .halted record } ∧ record.inst = some w ∧ record.pc = s.pc then
        record.addr.map fun addr => (record.code, t.pc, addr)
      else none

/-- OP-1 `add x3, x1, x2`: unsigned carry out is dropped -/
theorem test_op_1_add :
    regAfter 3 0x002081B3#32 (start 0#32 [(1, 0xFFFFFFFF#32), (2, 0x00000001#32)] []) =
      some (0x00000000#32, 0x00000004#32) := by decide

/-- OP-3 `add x1, x1, x1`: rd = rs1 = rs2 -/
theorem test_op_3_add :
    regAfter 1 0x001080B3#32 (start 0#32 [(1, 0x40000000#32)] []) =
      some (0x80000000#32, 0x00000004#32) := by decide

/-- OP-5 `sub x3, x1, x2`: signed overflow wraps -/
theorem test_op_5_sub :
    regAfter 3 0x402081B3#32 (start 0#32 [(1, 0x80000000#32), (2, 0x00000001#32)] []) =
      some (0x7FFFFFFF#32, 0x00000004#32) := by decide

/-- OP-6 `sub x3, x1, x1`: rs1 = rs2 -/
theorem test_op_6_sub :
    regAfter 3 0x401081B3#32 (start 0#32 [(1, 0x12345678#32)] []) =
      some (0x00000000#32, 0x00000004#32) := by decide

/-- OP-8 `sll x3, x1, x2`: only x2[4:0] used: shift by 0 -/
theorem test_op_8_sll :
    regAfter 3 0x002091B3#32 (start 0#32 [(1, 0x00000001#32), (2, 0x00000020#32)] []) =
      some (0x00000001#32, 0x00000004#32) := by decide

/-- OP-9 `sll x3, x1, x2`: x2[4:0] = 4 -/
theorem test_op_9_sll :
    regAfter 3 0x002091B3#32 (start 0#32 [(1, 0x12345678#32), (2, 0xFFFFFFE4#32)] []) =
      some (0x23456780#32, 0x00000004#32) := by decide

/-- OP-10 `slt x3, x1, x2`: most negative < most positive -/
theorem test_op_10_slt :
    regAfter 3 0x0020A1B3#32 (start 0#32 [(1, 0x80000000#32), (2, 0x7FFFFFFF#32)] []) =
      some (0x00000001#32, 0x00000004#32) := by decide

/-- OP-11 `slt x3, x1, x2`: equal gives 0 -/
theorem test_op_11_slt :
    regAfter 3 0x0020A1B3#32 (start 0#32 [(1, 0x00000005#32), (2, 0x00000005#32)] []) =
      some (0x00000000#32, 0x00000004#32) := by decide

/-- OP-12 `sltu x3, x0, x2`: x2 != 0 test -/
theorem test_op_12_sltu :
    regAfter 3 0x002031B3#32 (start 0#32 [(2, 0x00000001#32)] []) =
      some (0x00000001#32, 0x00000004#32) := by decide

/-- OP-13 `sltu x3, x0, x2`: x2 = 0 -/
theorem test_op_13_sltu :
    regAfter 3 0x002031B3#32 (start 0#32 [(2, 0x00000000#32)] []) =
      some (0x00000000#32, 0x00000004#32) := by decide

/-- OP-14 `xor x3, x1, x1`: x ^ x = 0 -/
theorem test_op_14_xor :
    regAfter 3 0x0010C1B3#32 (start 0#32 [(1, 0xDEADBEEF#32)] []) =
      some (0x00000000#32, 0x00000004#32) := by decide

/-- OP-15 `srl x3, x1, x2`: zero fill -/
theorem test_op_15_srl :
    regAfter 3 0x0020D1B3#32 (start 0#32 [(1, 0xFFFFFFFF#32), (2, 0x0000001F#32)] []) =
      some (0x00000001#32, 0x00000004#32) := by decide

/-- OP-16 `srl x3, x1, x2`: shift by 0 -/
theorem test_op_16_srl :
    regAfter 3 0x0020D1B3#32 (start 0#32 [(1, 0xFFFFFFFF#32), (2, 0x00000000#32)] []) =
      some (0xFFFFFFFF#32, 0x00000004#32) := by decide

/-- OP-17 `sra x3, x1, x2`: sign fill to all ones -/
theorem test_op_17_sra :
    regAfter 3 0x4020D1B3#32 (start 0#32 [(1, 0x80000000#32), (2, 0x0000001F#32)] []) =
      some (0xFFFFFFFF#32, 0x00000004#32) := by decide

/-- OP-19 `sra x3, x1, x2`: x2[4:0] = 0 -/
theorem test_op_19_sra :
    regAfter 3 0x4020D1B3#32 (start 0#32 [(1, 0x80000000#32), (2, 0x00000020#32)] []) =
      some (0x80000000#32, 0x00000004#32) := by decide

/-- OP-20 `or x3, x1, x0`: x0 reads 0 -/
theorem test_op_20_or :
    regAfter 3 0x0000E1B3#32 (start 0#32 [(1, 0xA5A5A5A5#32)] []) =
      some (0xA5A5A5A5#32, 0x00000004#32) := by decide

/-- OP-21 `and x3, x1, x2` -/
theorem test_op_21_and :
    regAfter 3 0x0020F1B3#32 (start 0#32 [(1, 0xFFFFFFFF#32), (2, 0x00000000#32)] []) =
      some (0x00000000#32, 0x00000004#32) := by decide

/-- OPI-1 `addi x3, x1, -2048`: most negative immediate -/
theorem test_opi_1_addi :
    regAfter 3 0x80008193#32 (start 0#32 [(1, 0x00000000#32)] []) =
      some (0xFFFFF800#32, 0x00000004#32) := by decide

/-- OPI-2 `addi x3, x1, 2047`: most positive immediate, overflow wraps -/
theorem test_opi_2_addi :
    regAfter 3 0x7FF08193#32 (start 0#32 [(1, 0x7FFFFFFF#32)] []) =
      some (0x800007FE#32, 0x00000004#32) := by decide

/-- OPI-5 `slti x3, x1, 0` -/
theorem test_opi_5_slti :
    regAfter 3 0x0000A193#32 (start 0#32 [(1, 0x80000000#32)] []) =
      some (0x00000001#32, 0x00000004#32) := by decide

/-- OPI-6 `slti x3, x1, -1`: equal gives 0 -/
theorem test_opi_6_slti :
    regAfter 3 0xFFF0A193#32 (start 0#32 [(1, 0xFFFFFFFF#32)] []) =
      some (0x00000000#32, 0x00000004#32) := by decide

/-- OPI-7 `sltiu x3, x1, -1`: imm sign-extends to 0xFFFFFFFF (C3); equal gives 0 -/
theorem test_opi_7_sltiu :
    regAfter 3 0xFFF0B193#32 (start 0#32 [(1, 0xFFFFFFFF#32)] []) =
      some (0x00000000#32, 0x00000004#32) := by decide

/-- OPI-9 `sltiu x3, x1, 2047` -/
theorem test_opi_9_sltiu :
    regAfter 3 0x7FF0B193#32 (start 0#32 [(1, 0x00000800#32)] []) =
      some (0x00000000#32, 0x00000004#32) := by decide

/-- OPI-10 `xori x3, x1, -2048`: imm sign-extended -/
theorem test_opi_10_xori :
    regAfter 3 0x8000C193#32 (start 0#32 [(1, 0x00000000#32)] []) =
      some (0xFFFFF800#32, 0x00000004#32) := by decide

/-- OPI-11 `ori x3, x1, -1` -/
theorem test_opi_11_ori :
    regAfter 3 0xFFF0E193#32 (start 0#32 [(1, 0x00000000#32)] []) =
      some (0xFFFFFFFF#32, 0x00000004#32) := by decide

/-- OPI-12 `andi x3, x1, 255`: byte mask -/
theorem test_opi_12_andi :
    regAfter 3 0x0FF0F193#32 (start 0#32 [(1, 0x12345678#32)] []) =
      some (0x00000078#32, 0x00000004#32) := by decide

/-- OPI-14 `slli x3, x1, 4`: bits shifted out are lost -/
theorem test_opi_14_slli :
    regAfter 3 0x00409193#32 (start 0#32 [(1, 0xF0000001#32)] []) =
      some (0x00000010#32, 0x00000004#32) := by decide

/-- OPI-15 `srli x3, x1, 1` -/
theorem test_opi_15_srli :
    regAfter 3 0x0010D193#32 (start 0#32 [(1, 0x80000001#32)] []) =
      some (0x40000000#32, 0x00000004#32) := by decide

/-- OPI-16 `srai x3, x1, 31` -/
theorem test_opi_16_srai :
    regAfter 3 0x41F0D193#32 (start 0#32 [(1, 0x80000000#32)] []) =
      some (0xFFFFFFFF#32, 0x00000004#32) := by decide

/-- OPI-18 `srai x1, x1, 8`: rd = rs1 -/
theorem test_opi_18_srai :
    regAfter 1 0x4080D093#32 (start 0#32 [(1, 0x7F00FF00#32)] []) =
      some (0x007F00FF#32, 0x00000004#32) := by decide

/-- U-1 `lui x1, 0xFFFFF`: low 12 bits are 0 -/
theorem test_u_1_lui :
    regAfter 1 0xFFFFF0B7#32 (start 0#32 [] []) =
      some (0xFFFFF000#32, 0x00000004#32) := by decide

/-- U-2 `lui x1, 0`: overwrites all 32 bits -/
theorem test_u_2_lui :
    regAfter 1 0x000000B7#32 (start 0#32 [(1, 0x12345678#32)] []) =
      some (0x00000000#32, 0x00000004#32) := by decide

/-- U-4 `auipc x1, 0`: reads own pc -/
theorem test_u_4_auipc :
    regAfter 1 0x00000097#32 (start 0x00000020#32 [] []) =
      some (0x00000020#32, 0x00000024#32) := by decide

/-- U-5 `auipc x1, 0xFFFFF`: negative offset wraps -/
theorem test_u_5_auipc :
    regAfter 1 0xFFFFF097#32 (start 0x00000010#32 [] []) =
      some (0xFFFFF010#32, 0x00000014#32) := by decide

/-- J-1 `jal x1, -16`: backward -/
theorem test_j_1_jal :
    regAfter 1 0xFF1FF0EF#32 (start 0x00000040#32 [] []) =
      some (0x00000044#32, 0x00000030#32) := by decide

/-- J-3 `jal x1, 6`: target not a multiple of 4: fault, x1 not written -/
theorem test_j_3_jal :
    faultAfter 0x006000EF#32 (start 0x00000040#32 [] []) =
      some (.instructionAddressMisaligned, 0x00000040#32, 0x00000046#32) := by decide

/-- J-5 `jalr x1, 0(x1)`: rd = rs1: target uses old x1 -/
theorem test_j_5_jalr :
    regAfter 1 0x000080E7#32 (start 0x00000040#32 [(1, 0x00000100#32)] []) =
      some (0x00000044#32, 0x00000100#32) := by decide

/-- J-8 `jalr x1, 2(x5)`: target 0x202: fault, x1 not written -/
theorem test_j_8_jalr :
    faultAfter 0x002280E7#32 (start 0x00000040#32 [(5, 0x00000200#32)] []) =
      some (.instructionAddressMisaligned, 0x00000040#32, 0x00000202#32) := by decide

/-- B-1 `beq x1, x2, -4096`: most negative offset -/
theorem test_b_1_beq :
    pcAfter 0x80208063#32 (start 0x00001000#32 [(1, 0x00000003#32), (2, 0x00000003#32)] []) = some 0x00000000#32 := by decide

/-- B-2 `beq x1, x2, 4094`: target 0xFFE: fault -/
theorem test_b_2_beq :
    faultAfter 0x7E208FE3#32 (start 0#32 [(1, 0x00000003#32), (2, 0x00000003#32)] []) =
      some (.instructionAddressMisaligned, 0#32, 0x00000FFE#32) := by decide

/-- B-4 `bne x1, x1, 8`: rs1 = rs2: never taken -/
theorem test_b_4_bne :
    pcAfter 0x00109463#32 (start 0x00000100#32 [(1, 0x00000009#32)] []) = some 0x00000104#32 := by decide

/-- B-5 `blt x1, x2, 8`: equal: not taken -/
theorem test_b_5_blt :
    pcAfter 0x0020C463#32 (start 0x00000100#32 [(1, 0x00000005#32), (2, 0x00000005#32)] []) = some 0x00000104#32 := by decide

/-- B-6 `blt x1, x2, 8`: signed -/
theorem test_b_6_blt :
    pcAfter 0x0020C463#32 (start 0x00000100#32 [(1, 0x80000000#32), (2, 0x7FFFFFFF#32)] []) = some 0x00000108#32 := by decide

/-- B-7 `bge x1, x2, 8`: equal: taken -/
theorem test_b_7_bge :
    pcAfter 0x0020D463#32 (start 0x00000100#32 [(1, 0x00000005#32), (2, 0x00000005#32)] []) = some 0x00000108#32 := by decide

/-- B-8 `bltu x1, x2, 8`: unsigned -/
theorem test_b_8_bltu :
    pcAfter 0x0020E463#32 (start 0x00000100#32 [(1, 0x7FFFFFFF#32), (2, 0x80000000#32)] []) = some 0x00000108#32 := by decide

/-- B-9 `bgeu x1, x0, 8`: x >= 0 unsigned: always taken -/
theorem test_b_9_bgeu :
    pcAfter 0x0000F463#32 (start 0x00000100#32 [(1, 0x00000000#32)] []) = some 0x00000108#32 := by decide

/-- L-3 `lb x3, 3(x0)`: byte 0x80: sign extends -/
theorem test_l_3_lb :
    regAfter 3 0x00300183#32 (start 0#32 [] [(0, 0x80FF7F01#32), (1, 0xDEADBEEF#32)]) =
      some (0xFFFFFF80#32, 0x00000004#32) := by decide

/-- L-5 `lh x3, 2(x0)`: half 0x80FF -/
theorem test_l_5_lh :
    regAfter 3 0x00201183#32 (start 0#32 [] [(0, 0x80FF7F01#32), (1, 0xDEADBEEF#32)]) =
      some (0xFFFF80FF#32, 0x00000004#32) := by decide

/-- L-10 `lw x3, 8(x1)`: EA wraps to 4 -/
theorem test_l_10_lw :
    regAfter 3 0x0080A183#32 (start 0#32 [(1, 0xFFFFFFFC#32)] [(0, 0x80FF7F01#32), (1, 0xDEADBEEF#32)]) =
      some (0xDEADBEEF#32, 0x00000004#32) := by decide

/-- L-4 `lbu x3, 2(x0)`: byte 0xFF zero-extended -/
theorem test_l_4_lbu :
    regAfter 3 0x00204183#32 (start 0#32 [] [(0, 0x80FF7F01#32), (1, 0xDEADBEEF#32)]) =
      some (0x000000FF#32, 0x00000004#32) := by decide

/-- L-16 `lbu x3, -1(x0)`: EA 0xFFFFFFFF out of range -/
theorem test_l_16_lbu :
    faultAfter 0xFFF04183#32 (start 0#32 [] [(0, 0x80FF7F01#32), (1, 0xDEADBEEF#32)]) =
      some (.loadOutOfRange, 0#32, 0xFFFFFFFF#32) := by decide

/-- L-6 `lhu x3, 2(x0)` -/
theorem test_l_6_lhu :
    regAfter 3 0x00205183#32 (start 0#32 [] [(0, 0x80FF7F01#32), (1, 0xDEADBEEF#32)]) =
      some (0x000080FF#32, 0x00000004#32) := by decide

/-- S-2 `sb x2, 6(x0)`: lane 2; only x2[7:0] stored -/
theorem test_s_2_sb :
    dataAfter 1 0x00200323#32 (start 0#32 [(2, 0xAABBCCDD#32)] [(1, 0xDEADBEEF#32)]) =
      some (0xDEDDBEEF#32, 0x00000004#32) := by decide

/-- S-4 `sh x2, 7(x0)`: misaligned: memory unchanged -/
theorem test_s_4_sh :
    faultAfter 0x002013A3#32 (start 0#32 [(2, 0xAABBCCDD#32)] [(1, 0xDEADBEEF#32)]) =
      some (.misalignedStore, 0#32, 0x00000007#32) := by decide

/-- S-3 `sh x2, 4(x0)`: low half -/
theorem test_s_3_sh :
    dataAfter 1 0x00201223#32 (start 0#32 [(2, 0xAABBCCDD#32)] [(1, 0xDEADBEEF#32)]) =
      some (0xDEADCCDD#32, 0x00000004#32) := by decide

/-- S-9 `sw x2, -4(x1)`: last word in range -/
theorem test_s_9_sw :
    dataAfter 63 0xFE20AE23#32 (start 0#32 [(1, 0x00000100#32), (2, 0x00000001#32)] [(1, 0xDEADBEEF#32)]) =
      some (0x00000001#32, 0x00000004#32) := by decide

/-- S-8 `sw x2, 0(x1)`: out of range -/
theorem test_s_8_sw :
    faultAfter 0x0020A023#32 (start 0#32 [(1, 0x00000100#32), (2, 0x00000001#32)] [(1, 0xDEADBEEF#32)]) =
      some (.storeOutOfRange, 0#32, 0x00000100#32) := by decide

/-- X-1: a fetch past the instruction store, IMEM_WORDS = 4 (FetchOutOfRange, code 1). -/
theorem test_x_1_fetch_out_of_range : Machine.step { State.resetOf ⟨4, 64, []⟩ with pc := 0x10#32 } =
    .next (haltedBy { State.resetOf ⟨4, 64, []⟩ with pc := 0x10#32 } .fetchOutOfRange none none (some 0x10#32)) := rfl

/-- X-3: the all-zero word from reset (IllegalInstruction, UnknownOpcode, code 2). -/
theorem test_x_3_nothing_loaded : Machine.step State.reset =
    .next (haltedBy State.reset .illegalInstruction (some .unknownOpcode) (some 0#32) none) := rfl

/-- L-13: `lw x0, 0(x1)` out of range faults all the same. -/
theorem test_l_13_load_to_x0_faults : faultAfter 0x0000A003#32 (start 0 [(1, 0x100#32)] []) =
    some (.loadOutOfRange, 0#32, 0x100#32) := by decide

/-- L-15: misaligned and out of range, misaligned first. -/
theorem test_l_15_misaligned_first : faultAfter 0x00109183#32 (start 0 [(1, 0x100#32)] []) =
    some (.misalignedLoad, 0#32, 0x101#32) := by decide

/-- A store of zero unlists its bytes, so the store is equal to one never written. -/
theorem test_memory_is_canonical :
    (Memory.writeWord (Memory.writeWord [] 3 0x01020304#32) 3 0#32 : Memory) = [] ∧
      (Memory.writeWord (Memory.writeWord [] 3 0x00020000#32) 1 0x05#32 : Memory) = [(4, 0x05#8), (14, 0x02#8)] := by decide

/-! ### Witnesses: a concrete state and operands that meet all hypotheses of a statement together -/

/-- The smallest and the largest parameters. -/
theorem witness_ConfigOk : ConfigOk ⟨1, 2 ^ 30, [0x0F#7, 0x2F#7]⟩ ∧ ConfigOk ⟨2 ^ 30, 1, []⟩ ∧
    ¬ ConfigOk ⟨0, 1, []⟩ ∧ ¬ ConfigOk ⟨1, 1, [0x73#7]⟩ := by decide

theorem witness_EncodeThenDecodeIsIdentity :
    (Instr.beq 1 2 0x1000).wf = true ∧ (Instr.jal 31 0x100000).wf = true ∧ (Instr.sw 31 0 0x800).wf = true := by decide

theorem witness_DecodeThenEncodeIsIdentity :
    decode [] 0x80208063#32 = .instr (.beq 1 2 (-4096)) ∧ decode [] 0xFFFFFF93#32 = .instr (.andi 31 31 (-1)) := by decide

/-- A word that selects a row, one that selects none though its opcode is named, one whose opcode is not. -/
theorem witness_DispatchAgreesWithOpcodeTable :
    OpTag.add.selects 0x002081B3#32 ∧ (∃ reason, decode [] 0x022081B3#32 = .illegal reason) ∧
      ∃ reason, decode [] 0x00000000#32 = .illegal reason := ⟨by decide, ⟨_, rfl⟩, ⟨_, rfl⟩⟩

/-- A running state, with 0x0F an extra tag, that fetches FENCE. -/
def fetchesFence : State := (State.resetOf ⟨1, 1, [0x0F#7]⟩).loadImage [0x0FF0000F#32]

/-- The three reasons, with 0x0F an extra tag: FENCE, an opcode outside every set, SYSTEM, a funct3 of LOAD with no row. -/
theorem witness_IllegalReasonOfEveryWord :
    (∀ b ∈ [0x0F#7], b ∉ [0x03#7, 0x13#7, 0x17#7, 0x23#7, 0x33#7, 0x37#7, 0x63#7, 0x67#7, 0x6F#7, 0x73#7]) ∧
    (0x0FF0000F#32).extractLsb' 0 7 ∈ [0x0F#7] ∧
    ((0x0000002F#32).extractLsb' 0 7 ∉ [0x03#7, 0x13#7, 0x17#7, 0x23#7, 0x33#7, 0x37#7, 0x63#7, 0x67#7, 0x6F#7, 0x73#7] ∧
      (0x0000002F#32).extractLsb' 0 7 ∉ [0x0F#7]) ∧
    (0x00000073#32).extractLsb' 0 7 = 0x73#7 ∧ decode [0x0F#7] 0x0000E183#32 = .illegal .unknownFunct ∧
    (fetchesFence.cfg.extraOpcodeTags = [0x0F#7] ∧ fetchesFence.run = .running ∧ ifetch fetchesFence = some 0x0FF0000F#32 ∧
      decode [0x0F#7] 0x0FF0000F#32 = .illegal .unimplemented) := by decide

theorem witness_OpcodeRoundTrip :
    (0xFFFFFF97#32).extractLsb' 0 7 = Opcode.auipc.bits ∧
      ((∀ o : Opcode, (0x0000002F#32).extractLsb' 0 7 ≠ o.bits) ∧ (0x0000002F#32).extractLsb' 0 7 ∉ [0x0F#7]) :=
  ⟨by decide, fun o => by cases o <;> decide, by decide⟩

theorem witness_SystemAndMiscMemAreIllegal :
    (0xC0002073#32).extractLsb' 0 7 = 0x73#7 ∧ (0x0FF0000F#32).extractLsb' 0 7 = 0x0F#7 := by decide

/-- One word of each format at the edge of its immediate's range, and its mux output. -/
theorem witness_BehaviourReadsTheImmediateMux :
    dispatch [] 0x402081B3#32 = .op ⟨.sub, 3, 1, 2, 0#32, 2⟩ ∧
    (dispatch [] 0x80008193#32 = .op ⟨.addi, 3, 1, 0, 0xFFFFF800#32, 0⟩ ∧
      decode [] 0x80008193#32 = .instr (.addi 3 1 0x800) ∧ immediateOf (.addi 3 1 0x800) = some (.I, 0xFFFFF800#32)) ∧
    (decode [] 0xFE20AE23#32 = .instr (.sw 2 1 0xFFC) ∧ immediateOf (.sw 2 1 0xFFC) = some (.S, 0xFFFFFFFC#32)) ∧
    (decode [] 0x80208063#32 = .instr (.beq 1 2 0x1000) ∧ immediateOf (.beq 1 2 0x1000) = some (.B, 0xFFFFF000#32)) ∧
    (decode [] 0xFFFFF0B7#32 = .instr (.lui 1 0xFFFFF) ∧ immediateOf (.lui 1 0xFFFFF) = some (.U, 0xFFFFF000#32)) ∧
    (decode [] 0xFF1FF0EF#32 = .instr (.jal 1 0x1FFFF0) ∧ immediateOf (.jal 1 0x1FFFF0) = some (.J, 0xFFFFFFF0#32)) := by
  decide

/-- Both sign-bit clauses, at the smallest and the largest width. -/
theorem witness_ExtensionLaws :
    (1 ≤ 1 ∧ 1 ≤ 32 ∧ (0x00000001#32).getLsbD (1 - 1) = true ∧ (0xFFFFFFFE#32).getLsbD (1 - 1) = false) ∧
    (1 ≤ 32 ∧ 32 ≤ 32 ∧ (0x80000000#32).getLsbD (32 - 1) = true ∧ (0x7FFFFFFF#32).getLsbD (32 - 1) = false) := by decide

theorem witness_RegisterFileReadsWhatWasWritten :
    (1 : Reg) ≠ 0 ∧ (31 : Reg) ≠ 0 ∧ (0 : Reg) ≠ 31 ∧ (30 : Reg) ≠ 31 := by decide

/-- A register that is not the destination, an instruction with no destination, and the destination x0. -/
theorem witness_OnlyTheDestinationRegisterChanges :
    ((∃ t, exec (.add 3 1 2) (start 0 [] []) = .next t) ∧ rdOf (.add 3 1 2) ≠ some 4) ∧
    ((∃ t, exec (.sb 3 1 2) (start 0 [] []) = .next t) ∧ rdOf (.sb 3 1 2) ≠ some 3) ∧
    ((∃ t, exec (.lw 0 1 2) (start 0 [] []) = .next t) ∧ rdOf (.lw 0 1 2) = some 0) :=
  ⟨⟨⟨_, rfl⟩, by decide⟩, ⟨⟨_, rfl⟩, by decide⟩, ⟨⟨_, rfl⟩, by decide⟩⟩

theorem witness_IntegerInstructionToX0OnlyAdvances :
    (isInteger (.sub 0 1 2) = true ∧ rdOf (.sub 0 1 2) = some 0) ∧
      (isInteger (.auipc 0 0xFFFFF) = true ∧ rdOf (.auipc 0 0xFFFFF) = some 0) := by decide

/-- The empty image and an image that fills the store; the last word of each store and the first past it. -/
theorem witness_LaunchStateIsResetWithTheImage :
    ([] : List Word).length ≤ (Config.mk 1 1 []).imemWords ∧
      [0x00500093#32, 0x00000073#32].length ≤ (Config.mk 2 1 []).imemWords ∧
      (1 < (Config.mk 2 1 []).imemWords ∧ ¬ 2 < (Config.mk 2 1 []).imemWords) ∧
      (0 < (Config.mk 2 1 []).dmemWords ∧ ¬ 1 < (Config.mk 2 1 []).dmemWords) := by decide

/-- The last word of an instruction store of 4 words. -/
def atLastWord : State := (State.resetOf ⟨4, 64, []⟩).loadImage [0x13#32, 0x13#32, 0x13#32, 0x002081B3#32]

theorem witness_StepRunsTheDecodedInstruction :
    let s : State := { atLastWord with pc := 0xC#32 }
    s.run = .running ∧ s.pc.toNat / 4 < s.cfg.imemWords ∧
      decode s.cfg.extraOpcodeTags (s.imem.word (s.pc.toNat / 4)) = .instr (.add 3 1 2) := by decide

theorem witness_PlacedWordRunsNext :
    (0xFFFFFF97 < 2 ^ 32 ∧ decode State.reset.cfg.extraOpcodeTags (BitVec.ofNat 32 0xFFFFFF97) = .instr (.auipc 31 0xFFFFF)) ∧
    (0x00000003 < 2 ^ 32 ∧ decode State.reset.cfg.extraOpcodeTags (BitVec.ofNat 32 0x00000003) = .instr (.lb 0 0 0)) := by
  decide

theorem witness_IllegalWordHaltsTheBlock :
    let s : State := fetchesFence
    s.run = .running ∧ s.pc.toNat / 4 < s.cfg.imemWords ∧
      decode s.cfg.extraOpcodeTags (s.imem.word (s.pc.toNat / 4)) = .illegal .unimplemented := by decide

theorem witness_FetchOutOfRangeHaltsTheBlock :
    let s : State := { atLastWord with pc := 0x10#32 }
    s.run = .running ∧ s.cfg.imemWords ≤ s.pc.toNat / 4 := by decide

/-- A state that a step halted. -/
def halted : State := haltedBy State.reset .illegalInstruction (some .unknownOpcode) (some 0#32) none

theorem witness_HaltedIsFinal : ∃ record, halted.run = .halted record := ⟨_, rfl⟩

theorem witness_EveryRunningStateSteps : State.reset.run = .running ∧ atLastWord.run = .running := by decide

/-- A fetch fault, a decode fault and a fault of an instruction. -/
theorem witness_FaultRecordHasItsShape :
    (∃ t record, Machine.step { atLastWord with pc := 0x10#32 } = .next t ∧ t.run = .halted record) ∧
    (∃ t record, Machine.step State.reset = .next t ∧ t.run = .halted record) ∧
    (∃ t record, Machine.step ((start 0 [] []).placeWord 0x00202183#32) = .next t ∧ t.run = .halted record) :=
  ⟨⟨_, _, rfl, rfl⟩, ⟨_, _, rfl, rfl⟩, ⟨_, _, rfl, rfl⟩⟩

/-- A redirect and none, at the top of the address space. -/
theorem witness_NextPcIsRedirectOrPlusFour :
    (∃ t, exec (.jal 1 4) (start 0xFFFFFFFC#32 [] []) = .next t ∧ t.run = .running ∧
      redirectOf (start 0xFFFFFFFC#32 [] []) (.jal 1 4) = some 0#32) ∧
    (∃ t, exec (.bne 1 1 4) (start 0xFFFFFFFC#32 [] []) = .next t ∧ t.run = .running ∧
      redirectOf (start 0xFFFFFFFC#32 [] []) (.bne 1 1 4) = none) :=
  ⟨⟨_, rfl, rfl, by decide⟩, ⟨_, rfl, rfl, by decide⟩⟩

/-- The bytes just below and just above a half-word store, and any byte under an instruction that stores nothing. -/
theorem witness_OnlyStoredBytesChange :
    ((∃ t, exec (.sh 2 0 4) (start 0 [] []) = .next t) ∧
      ∀ ea n, storeSpan (start 0 [] []) (.sh 2 0 4) = some (ea, n) → ¬ (ea ≤ 3 ∧ 3 < ea + n) ∧ ¬ (ea ≤ 6 ∧ 6 < ea + n)) ∧
    ((∃ t, exec (.lw 2 0 4) (start 0 [] []) = .next t) ∧ storeSpan (start 0 [] []) (.lw 2 0 4) = none) :=
  ⟨⟨⟨_, rfl⟩, fun ea n h => by
    obtain ⟨rfl, rfl⟩ : (4 : Nat) = ea ∧ (2 : Nat) = n := by simpa using (show some ((4 : Nat), (2 : Nat)) = _ from h)
    decide⟩, ⟨_, rfl⟩, by decide⟩

/-- Two states with different data, a store and a jump. -/
theorem witness_DataReachesTheStateThroughLoadsAlone :
    (isLoad (.sw 1 0 0) = false ∧ isLoad (.jalr 1 2 0) = false) ∧
    AgreeButData (start 0 [(1, 5#32)] [(0, 7#32)]) (start 0 [(1, 5#32)] []) ∧
    (start 0 [(1, 5#32)] [(0, 7#32)]) ≠ start 0 [(1, 5#32)] [] ∧
    (∃ t, exec (.sw 1 0 0) (start 0 [(1, 5#32)] [(0, 7#32)]) = .next t) ∧
    (∃ t, exec (.sw 1 0 0) (start 0 [(1, 5#32)] []) = .next t) :=
  ⟨by decide, ⟨rfl, fun _ => rfl, rfl, rfl, rfl⟩, by decide, ⟨_, rfl⟩, ⟨_, rfl⟩⟩

/-- A state with a data byte listed, before a store. -/
theorem witness_StepKeepsTheInvariant :
    Inv ((start 0 [] [(63, 0xFF000000#32)]).placeWord 0x00002223#32) ∧
      ∃ t, Machine.step ((start 0 [] [(63, 0xFF000000#32)]).placeWord 0x00002223#32) = .next t := ⟨by decide, _, rfl⟩

/-- A state one step after the start of a run. -/
theorem witness_ReachableStatesMeetTheInvariant : ∃ s : State, Reachable s ∧ s.pc = 4 ∧ s.x 1 = 5 :=
  ⟨_, .step _ _ (.start ⟨2, 1, []⟩ [0x00500093#32, 0x00000073#32] (by decide) (by decide)) rfl, rfl, rfl⟩

theorem witness_NothingLoadedHaltsAtOnce : 1 ≤ (Config.mk 1 1 []).imemWords := by decide

/-- The jump to itself never faults: two steps of it are a safe run. -/
theorem witness_HostRunAgreesWithCoreRun : SafeFor 2 (State.reset.placeWord 0x0000006F#32) := by
  intro j hj
  match j, hj with
  | 0, _ => rfl
  | 1, _ => rfl
  | 2, _ => rfl

/-- A first step that goes on and one that halts; two steps of the jump to itself, to a Running state. -/
theorem witness_HostRunTakesTheStepsOfTheBlock :
    (∃ t, Machine.step (State.reset.placeWord 0x0000006F#32) = .next t) ∧
    (∃ t, Machine.step State.reset = .next t) ∧ State.reset.run = .running ∧
    ∃ t, Steps 2 (State.reset.placeWord 0x0000006F#32) t ∧ t.run = .running :=
  ⟨⟨_, rfl⟩, ⟨_, rfl⟩, rfl, _, .succ _ _ _ _ rfl (.succ _ _ _ _ rfl (.zero _)), rfl⟩

/-- The amounts 0, 31 and 32 (which is 0). -/
theorem witness_RegisterShiftsCompute :
    0 = (0#32).toNat % 32 ∧ 31 = ((start 0 [(2, 31#32)] []).x 2).toNat % 32 ∧
      0 = ((start 0 [(2, 32#32)] []).x 2).toNat % 32 := by decide

/-- For each funct3, the imm[11:5] nearest to a legal one that no shift-immediate has (95_test_vectors.md L2-2). -/
theorem witness_ImmediateShiftsCompute :
    ((0x40309193#32).extractLsb' 0 7 = 0b0010011#7 ∧ (0x40309193#32).extractLsb' 12 3 = 0b001#3 ∧
      (0x40309193#32).extractLsb' 25 7 ≠ 0b0000000#7) ∧
    ((0x0230D193#32).extractLsb' 0 7 = 0b0010011#7 ∧ (0x0230D193#32).extractLsb' 12 3 = 0b101#3 ∧
      (0x0230D193#32).extractLsb' 25 7 ≠ 0b0000000#7 ∧ (0x0230D193#32).extractLsb' 25 7 ≠ 0b0100000#7) ∧
    ((0x6030D193#32).extractLsb' 0 7 = 0b0010011#7 ∧ (0x6030D193#32).extractLsb' 12 3 = 0b101#3 ∧
      (0x6030D193#32).extractLsb' 25 7 ≠ 0b0000000#7 ∧ (0x6030D193#32).extractLsb' 25 7 ≠ 0b0100000#7) := by decide

/-- The words that the encoding clauses of the integer statements read: one of each shape. -/
theorem witness_encoding_clauses :
    ((0x402081B3#32).extractLsb' 0 7 = 0b0110011#7 ∧ (0x402081B3#32).extractLsb' 12 3 = 0b000#3 ∧
      (0x402081B3#32).extractLsb' 25 7 = 0b0100000#7) ∧
    ((0xFFF0B193#32).extractLsb' 0 7 = 0b0010011#7 ∧ (0xFFF0B193#32).extractLsb' 12 3 = 0b011#3) ∧
    ((0x41F0D193#32).extractLsb' 0 7 = 0b0010011#7 ∧ (0x41F0D193#32).extractLsb' 12 3 = 0b101#3 ∧
      (0x41F0D193#32).extractLsb' 25 7 = 0b0100000#7) ∧
    (0xFFFFF097#32).extractLsb' 0 7 = 0b0010111#7 ∧ (0xFF1FF0EF#32).extractLsb' 0 7 = 0b1101111#7 ∧
    ((0x80208063#32).extractLsb' 0 7 = 0b1100011#7 ∧ (0x80208063#32).extractLsb' 12 3 = 0b000#3) ∧
    ((0x0020A223#32).extractLsb' 0 7 = 0b0100011#7 ∧ (0x0020A223#32).extractLsb' 12 3 = 0b010#3) := by decide

/-- JAL to a target below 0, JALR to the four targets of one word: 0x100 and 0x101 are aligned (0x101 after bit 0 is
dropped). -/
theorem witness_JumpsGoToTheirTarget :
    wrapSum (start 0x40#32 [] []).pc (0x1FFFBC#21).toInt % 4 = 0 ∧
    wrapSum ((start 0 [(5, 0x100#32)] []).x 5) (0#12).toInt % 4 < 2 ∧
    wrapSum ((start 0 [(5, 0x101#32)] []).x 5) (0#12).toInt % 4 < 2 := by decide

/-- The other two targets of that word, and JAL to the middle of a word. -/
theorem witness_MisalignedJumpsHalt :
    wrapSum (start 0x40#32 [] []).pc (6#21).toInt % 4 ≠ 0 ∧
    2 ≤ wrapSum ((start 0 [(5, 0x102#32)] []).x 5) (0#12).toInt % 4 ∧
    2 ≤ wrapSum ((start 0 [(5, 0xFFFFFFFF#32)] []).x 5) (0#12).toInt % 4 := by decide

/-- Links at the top of the address space, to x31 and to x0. -/
theorem witness_JumpLinkIsPcPlusFour :
    ((start 0xFFFFFFFC#32 [] []).run = .running ∧
      ∃ t, exec (.jal 31 4) (start 0xFFFFFFFC#32 [] []) = .next t ∧ t.run = .running) ∧
    ∃ t, exec (.jalr 0 1 0) (start 0xFFFFFFFC#32 [] []) = .next t ∧ t.run = .running :=
  ⟨⟨rfl, _, rfl, rfl⟩, _, rfl, rfl⟩

/-- For each condition, operands that meet it and operands that do not, at the edge where signed and unsigned differ. -/
theorem witness_conditions :
    let a : Word := 0x80000000#32
    let b : Word := 0x7FFFFFFF#32
    (a = a ∧ ¬ a = b) ∧ (a ≠ b ∧ ¬ a ≠ a) ∧ (a.toInt < b.toInt ∧ ¬ b.toInt < a.toInt) ∧
      (b.toInt ≥ a.toInt ∧ a.toInt ≥ a.toInt ∧ ¬ a.toInt ≥ b.toInt) ∧ (b.toNat < a.toNat ∧ ¬ a.toNat < b.toNat) ∧
      (a.toNat ≥ b.toNat ∧ a.toNat ≥ a.toNat ∧ ¬ b.toNat ≥ a.toNat) := by decide

/-- Targets of a branch at 0x1000: the farthest back is aligned, the farthest on is not. -/
theorem witness_branch_targets :
    wrapSum (start 0x1000#32 [] []).pc (0x1000#13).toInt % 4 = 0 ∧
      wrapSum (start 0x1000#32 [] []).pc (4094#13).toInt % 4 ≠ 0 := by decide

theorem witness_AddressIsBasePlusSignedOffset :
    ((∃ t, exec (.sh 2 1 0) (start 0 [] []) = .next t) ∧ Instr.sh 2 1 0 ∈ [Instr.sb 2 1 0, .sh 2 1 0, .sw 2 1 0]) ∧
    ((∃ t, exec (.lw 2 1 0) (start 0 [] []) = .next t) ∧
      Instr.lw 2 1 0 ∈ [Instr.lb 2 1 0, .lh 2 1 0, .lw 2 1 0, .lbu 2 1 0, .lhu 2 1 0] ∧ (1 : Reg) ≠ 2) :=
  ⟨⟨⟨_, rfl⟩, by decide⟩, ⟨⟨_, rfl⟩, by decide, by decide⟩⟩

/-- Accesses of each width in the last word of a store of 64 words, and one that wraps to address 4: they meet the
hypotheses of the load and the store statements (LoadsReadTheirBytes, StoresWriteTheirBytes, LoadAfterStoreReturnsTheValue). -/
theorem witness_accesses :
    let s := start 0 [(1, 0x100#32), (4, 0xFFFFFFFC#32)] []
    ((effectiveAddress s 1 (-1)).toNat % 1 = 0 ∧ (effectiveAddress s 1 (-1)).toNat / 4 < s.cfg.dmemWords) ∧
    ((effectiveAddress s 1 (-2)).toNat % 2 = 0 ∧ (effectiveAddress s 1 (-2)).toNat / 4 < s.cfg.dmemWords) ∧
    ((effectiveAddress s 1 (-4)).toNat % 4 = 0 ∧ (effectiveAddress s 1 (-4)).toNat / 4 < s.cfg.dmemWords) ∧
    ((effectiveAddress s 4 8).toNat % 4 = 0 ∧ (effectiveAddress s 4 8).toNat / 4 < s.cfg.dmemWords) := by decide

/-- Misaligned accesses, in range and out of it, and the first aligned access out of range: the hypotheses of LoadFaultsHalt
and StoreFaultsHalt. -/
theorem witness_access_faults :
    let s := start 0 [(1, 0x100#32)] []
    (effectiveAddress s 1 (-3)).toNat % 2 ≠ 0 ∧ (effectiveAddress s 1 (-2)).toNat % 4 ≠ 0 ∧
      (effectiveAddress s 1 1).toNat % 2 ≠ 0 ∧
      ((effectiveAddress s 1 0).toNat % 4 = 0 ∧ s.cfg.dmemWords ≤ (effectiveAddress s 1 0).toNat / 4) ∧
      ((effectiveAddress s 1 3).toNat % 1 = 0 ∧ s.cfg.dmemWords ≤ (effectiveAddress s 1 3).toNat / 4) := by decide

/-- A word store to the last word and a byte access to its last byte. -/
theorem witness_MixedWidthAccessesSeeTheSameBytes :
    let s := start 0 [(1, 0x100#32), (2, 0xDEADBEEF#32)] []
    (3 : Reg) ≠ 0 ∧ 3 < 4 ∧ (effectiveAddress s 1 (-4)).toNat % 4 = 0 ∧
      (effectiveAddress s 1 (-4)).toNat / 4 < s.cfg.dmemWords ∧
      ∃ t, exec (.sw 2 1 (-4)) s = .next t ∧
        (effectiveAddress t 1 (-1)).toNat = (effectiveAddress s 1 (-4)).toNat + 3 :=
  ⟨by decide, by decide, by decide, by decide, _, rfl, by decide⟩

end Sys2Proof.Tests
end

section
namespace Sys2Proof

/-! ### The extension primitives (00_scope.md R16) -/

/-- Below its width, a sign extension keeps the operand's bits. -/
theorem getLsbD_sext_of_lt {n w k : Nat} (v : BitVec n) (hw : 1 ≤ w) (hw' : w ≤ 32) (hk : k < w) :
    (sext w v).getLsbD k = v.getLsbD k := by
  rw [getLsbD_sext w v hw hw', if_pos (hk.trans_le hw'), if_pos hk]

/-- From the sign bit up, every bit of a sign extension is the sign bit. The two branches of `getLsbD_sext` agree where they
meet, at `k = w - 1`. -/
theorem getLsbD_sext_of_sign_le {n w k : Nat} (v : BitVec n) (hw : 1 ≤ w) (hw' : w ≤ 32) (hk : w - 1 ≤ k) (hk' : k < 32) :
    (sext w v).getLsbD k = v.getLsbD (w - 1) := by
  rcases Nat.lt_or_ge k w with below | above
  · have atSign : k = w - 1 := by omega
    subst atSign
    exact getLsbD_sext_of_lt v hw hw' below
  · rw [getLsbD_sext w v hw hw', if_pos hk', if_neg above.not_gt]

/-- Settles O10: bit by bit, below the width by `getLsbD_sext_of_lt` and `getLsbD_zext`, from the sign bit up by
`getLsbD_sext_of_sign_le`. A word has no bit at 32 or above, which the third law also speaks of. -/
theorem extensionLaws : Obligations.ExtensionLaws := by
  intro w v hw hw'
  refine ⟨fun k hk => getLsbD_sext_of_lt v hw hw' hk, fun sign k hk hk' => ?ones, fun sign k hk => ?zeros, fun k => ?zero⟩
  case ones => exact (getLsbD_sext_of_sign_le v hw hw' hk hk').trans sign
  case zeros =>
    rcases Nat.lt_or_ge k 32 with inWord | pastWord
    · exact (getLsbD_sext_of_sign_le v hw hw' (by omega) inWord).trans sign
    · exact BitVec.getLsbD_of_ge _ _ pastWord
  case zero =>
    rw [getLsbD_zext w v hw']
    by_cases hk : k < w <;> simp [hk]

end Sys2Proof
end

section
namespace Sys2Proof.Machine

/-! ### The register file (10_state.md R31, R32) -/

@[simp] theorem State.x_resetOf (c : Config) (r : Reg) : (State.resetOf c).x r = 0 := by
  simp [State.x, State.resetOf]

theorem State.x_setX_same (s : State) {i : Reg} (v : Word) (hi : i ≠ 0) : (s.setX i v).x i = v := by
  rw [State.x_setX, if_neg hi, if_pos rfl]

theorem State.x_setX_of_ne (s : State) {i r : Reg} (v : Word) (hr : r ≠ i) : (s.setX i v).x r = s.x r := by
  rw [State.x_setX, if_neg hr]
  split
  · next zero => rw [zero, State.x_zero]
  · rfl

/-- Settles O11: one rule of the register file per clause. -/
theorem registerFileReadsWhatWasWritten : Obligations.RegisterFileReadsWhatWasWritten :=
  ⟨State.x_resetOf, fun s _ v =>
    ⟨s.x_zero, s.setX_zero v, s.x_setX_same v, fun _ => s.x_setX_of_ne v⟩⟩

/-! ### Instructions that complete (10_state.md R37) -/

/-- An instruction whose next state still runs took no fault: that state commits an effect of the instruction's own. -/
theorem exec_completes {i : Instr} {s t : State} (h : exec i s = .next t) (running : t.run = .running) :
    ∃ e : Effect, e.Ok s ∧ e.Of i s ∧ t = s.commit e := by
  obtain committed | ⟨c, -, rfl⟩ := exec_cases h
  · exact committed
  · simp at running

theorem exec_completes_pc {i : Instr} {s t : State} (h : exec i s = .next t) (running : t.run = .running) :
    t.pc = (redirectOf s i).getD (s.pc + 4) := by
  obtain ⟨e, -, of, rfl⟩ := exec_completes h running
  rw [State.commit_pc, of.redirect]

/-- Settles O23: the pc an instruction completes to (`exec_completes_pc`), with a redirect and without one. -/
theorem nextPcIsRedirectOrPlusFour : Obligations.NextPcIsRedirectOrPlusFour := by
  intro i s t _ h running
  have pc := exec_completes_pc h running
  refine ⟨fun target redirect => ?redirected, fun redirect => ?advanced⟩
  case redirected => rw [pc, redirect, Option.getD_some]
  case advanced =>
    rw [pc, redirect, Option.getD_none]
    exact BitVec.toNat_add s.pc 4

end Sys2Proof.Machine
end

section
namespace Sys2Proof

/-! ### Named and unnamed opcodes (30_encoding.md R112, R123, R133) -/

/-- `opcodeOf` reads the tag back from its value, so no two tags share one. -/
theorem Opcode.bits_injective : Function.Injective Opcode.bits := by
  intro o o' same
  have read : some o = some o' := by rw [← opcodeOf_bits o, same, opcodeOf_bits]
  exact Option.some.inj read

theorem opcodeOf_eq_none {b : BitVec 7} : opcodeOf b = none ↔ ∀ o : Opcode, b ≠ o.bits := by
  simp only [Option.eq_none_iff_forall_ne_some, ne_eq, opcodeOf_eq_some]

theorem unnamedOpcode_of_notMem {extra : List (BitVec 7)} {b : BitVec 7} (hb : b ∉ extra) :
    unnamedOpcode extra b = .unknownOpcode :=
  if_neg hb

/-- A word with no named opcode is illegal before any funct field is read. -/
theorem decode_of_opcodeOf_eq_none (extra : List (BitVec 7)) {w : Word} (unnamed : opcodeOf (opcodeField w) = none) :
    decode extra w = .illegal (unnamedOpcode extra (opcodeField w)) := by
  rw [decode_eq_illegal, dispatch, unnamed]

/-- Settles O5: `opcodeOf` and `Opcode.bits` are inverse on the named opcodes; a word with none of them decodes to the reason
`unnamedOpcode` gives. -/
theorem opcodeRoundTrip : Obligations.OpcodeRoundTrip := by
  refine ⟨fun o w named => ?tag, fun _ _ same => Opcode.bits_injective same, fun extra w unnamed notExtra => ?unknown⟩
  case tag => exact opcodeOf_eq_some.mpr named
  case unknown =>
    have noTag : opcodeOf (opcodeField w) = none := opcodeOf_eq_none.mpr unnamed
    have reason : unnamedOpcode extra (opcodeField w) = .unknownOpcode := unnamedOpcode_of_notMem notExtra
    rw [decode_of_opcodeOf_eq_none extra noTag, reason]

end Sys2Proof
end

section
namespace Sys2Proof.Machine

/-! ### Jumps and their link (41_control_transfer.md R190 to R194) -/

/-- What a register reads after a commit depends on the effect's register write alone. -/
theorem State.commit_x_eq_setX_x (s : State) (rd : Reg) (v : Word) (mw : Option MemWrite) (redirect : Option Word)
    (r : Reg) : (s.commit { rdWrite := some (rd, v), memWrite := mw, redirect := redirect }).x r = (s.setX rd v).x r :=
  (s.commit_x _ r).trans (s.x_setX rd v r).symm

/-- A transfer after which the block still runs met an aligned target, so its register write commits. -/
theorem finish_transfer_completes {i : Instr} {s t : State} {target : Word} {rw : Option (Reg × Word)}
    (h : finish i s (transfer target rw) = .next t) (running : t.run = .running) :
    t = s.commit { rdWrite := rw, memWrite := none, redirect := some target } := by
  by_cases aligned : target.toNat % 4 = 0
  · rw [transfer_aligned aligned, finish_done] at h
    exact (Host.Outcome.next.inj h).symm
  · rw [transfer_misaligned aligned, finish_raise] at h
    obtain rfl := Host.Outcome.next.inj h
    simp at running

theorem toNat_linkValue (s : State) : (linkValue s).toNat = (s.pc.toNat + 4) % 2 ^ 32 :=
  BitVec.toNat_add s.pc 4

/-- JAL and JALR differ in their target only: each is a transfer that writes the link to rd. -/
theorem exec_jump_eq_finish_transfer {i : Instr} {rd : Reg}
    (jump : (∃ offset, i = .jal rd offset) ∨ ∃ rs1 imm, i = .jalr rd rs1 imm) (s : State) :
    ∃ target, exec i s = finish i s (transfer target (some (rd, linkValue s))) := by
  obtain ⟨offset, rfl⟩ | ⟨rs1, imm, rfl⟩ := jump
  · exact ⟨jalTarget s offset, rfl⟩
  · exact ⟨jalrTarget s rs1 imm, rfl⟩

/-- Settles O44: a jump that completes leaves the registers as a write of the link to rd does, so each clause is a rule of the
register file. -/
theorem jumpLinkIsPcPlusFour : Obligations.JumpLinkIsPcPlusFour := by
  intro i s t rd jump _ h running
  obtain ⟨target, transfers⟩ := exec_jump_eq_finish_transfer jump s
  rw [transfers] at h
  obtain rfl := finish_transfer_completes h running
  refine ⟨fun notZero => ?linked, State.x_zero _, fun r other => ?kept⟩
  case linked => rw [State.commit_x_eq_setX_x, State.x_setX_same s _ notZero, toNat_linkValue]
  case kept => rw [State.commit_x_eq_setX_x, State.x_setX_of_ne s _ other]

end Sys2Proof.Machine
end

section
namespace Sys2Proof.Machine

/-! ### A halted block (60_exceptions.md R258) -/

theorem step_of_halted {s : State} {record : FaultRecord} (halted : s.run = .halted record) :
    step s = .fault (.halted record) := by
  simp only [step, halted]

/-- The host's loop ends at a step that answers no next state, whatever is left of its bound. -/
theorem State.hostRun_of_step_fault {s : State} {r : Fault} (stops : step s = .fault r) (k : Nat) :
    State.hostRun k s = s := by
  cases k with
  | zero => rfl
  | succ k => simp only [State.hostRun, stops]

/-- Settles O20: a step of a halted block is the Lean fault, which is no next state and ends the host's loop. -/
theorem haltedIsFinal : Obligations.HaltedIsFinal := by
  intro s record halted
  have stops : step s = .fault (.halted record) := step_of_halted halted
  refine ⟨fun t next => ?noNext, State.hostRun_of_step_fault stops⟩
  case noNext => exact nomatch stops.symm.trans next

end Sys2Proof.Machine
end

section
namespace Sys2Proof.Machine

/-! ### Registers at reset (70_reset_and_hazards.md R282) -/

/-- Settles O14: `State.x_resetOf` holds of any parameters, and `State.reset` is the reset at the model's `Config.atReset`. -/
theorem everyRegisterIsZeroAtReset : Obligations.EveryRegisterIsZeroAtReset :=
  ⟨State.x_resetOf, Config.atReset, rfl⟩

end Sys2Proof.Machine
end

section
namespace Sys2Proof

/-! ### The fields a row of opcode_table.json fixes (30_encoding.md R112 to R120) -/

/-- The opcode of a row. -/
def OpTag.opcode : OpTag → Opcode
  | .add | .sub | .sll | .slt | .sltu | .xor | .srl | .sra | .or | .and => .op
  | .addi | .slti | .sltiu | .xori | .ori | .andi | .slli | .srli | .srai => .opImm
  | .lui => .lui
  | .auipc => .auipc
  | .jal => .jal
  | .jalr => .jalr
  | .beq | .bne | .blt | .bge | .bltu | .bgeu => .branch
  | .lb | .lh | .lw | .lbu | .lhu => .load
  | .sb | .sh | .sw => .store

/-- The funct3 of a row, where it has one. -/
def OpTag.funct3 : OpTag → Option (BitVec 3)
  | .add | .sub | .addi | .jalr | .beq | .lb | .sb => some 0b000#3
  | .sll | .slli | .bne | .lh | .sh => some 0b001#3
  | .slt | .slti | .lw | .sw => some 0b010#3
  | .sltu | .sltiu => some 0b011#3
  | .xor | .xori | .blt | .lbu => some 0b100#3
  | .srl | .sra | .srli | .srai | .bge | .lhu => some 0b101#3
  | .or | .ori | .bltu => some 0b110#3
  | .and | .andi | .bgeu => some 0b111#3
  | .lui | .auipc | .jal => none

/-- The funct7, or imm[11:5], of a row, where it has one. -/
def OpTag.funct7 : OpTag → Option (BitVec 7)
  | .sub | .sra | .srai => some 0b0100000#7
  | .add | .sll | .slt | .sltu | .xor | .srl | .or | .and | .slli | .srli => some 0b0000000#7
  | .addi | .slti | .sltiu | .xori | .ori | .andi => none
  | .lui | .auipc | .jal | .jalr | .beq | .bne | .blt | .bge | .bltu | .bgeu => none
  | .lb | .lh | .lw | .lbu | .lhu | .sb | .sh | .sw => none

/-- Funct fields that a row allows: its own, where it has one. -/
structure OpTag.Fits (t : OpTag) (funct3 : BitVec 3) (funct7 : BitVec 7) : Prop where
  funct3 : ∀ f, t.funct3 = some f → funct3 = f
  funct7 : ∀ g, t.funct7 = some g → funct7 = g

/-- A word whose fields are the ones a row fixes. -/
structure OpTag.Matches (t : OpTag) (w : Word) : Prop where
  opcode : opcodeField w = t.opcode.bits
  fits : t.Fits (w.extractLsb' 12 3) (w.extractLsb' 25 7)

/-! ### Mask and match of a row are its fixed fields -/

/-- The mask of a field: whole where the row fixes it, empty where it does not. -/
def fixedMask {n : Nat} (field : Option (BitVec n)) : BitVec n := field.elim 0#n fun _ => BitVec.allOnes n

theorem and_fixedMask {n : Nat} (field : Option (BitVec n)) (v : BitVec n) :
    v &&& fixedMask field = field.getD 0#n ↔ ∀ f, field = some f → v = f := by
  cases field <;> simp [fixedMask]

theorem OpTag.maskWord_eq (t : OpTag) :
    t.maskWord = fixedMask t.funct7 ++ 0#10 ++ fixedMask t.funct3 ++ 0#5 ++ BitVec.allOnes 7 := by
  cases t <;> rfl

theorem OpTag.matchWord_eq (t : OpTag) :
    t.matchWord = t.funct7.getD 0#7 ++ 0#10 ++ t.funct3.getD 0#3 ++ 0#5 ++ t.opcode.bits := by
  cases t <;> rfl

/-- The mask/match reading of a row: its opcode, and its funct fields where it has them. -/
theorem OpTag.selects_iff_matches {t : OpTag} {w : Word} : t.selects w ↔ t.Matches w := by
  rw [OpTag.selects, OpTag.maskWord_eq, OpTag.matchWord_eq, and_fields, fields_eq_fields, and_fixedMask, and_fixedMask]
  simp only [BitVec.and_zero, BitVec.and_allOnes, true_and]
  exact ⟨fun ⟨h7, h3, ho⟩ => ⟨ho, h3, h7⟩, fun ⟨ho, h3, h7⟩ => ⟨h7, h3, ho⟩⟩

/-! ### The lookups of the dispatch mux find exactly the row that fits (30_encoding.md R113 to R120) -/

/-- The tag that an opcode and its funct fields look up. -/
def lookup (o : Opcode) (funct3 : BitVec 3) (funct7 : BitVec 7) : Option OpTag :=
  match o with
  | .op => lookupOp funct3 funct7
  | .opImm => lookupOpImm funct3 funct7
  | .load => lookupLoad funct3
  | .store => lookupStore funct3
  | .branch => lookupBranch funct3
  | .jalr => lookupJalr funct3
  | .jal => some .jal
  | .lui => some .lui
  | .auipc => some .auipc
  | .system => none

/-- Every format decoder reads funct3 and funct7, or imm[11:5], at the same bits of the word. -/
theorem tagOf_eq_lookup (w : Word) (o : Opcode) : tagOf w o = lookup o (w.extractLsb' 12 3) (w.extractLsb' 25 7) := by
  cases o <;> rfl

section
variable {o : Opcode} {f : BitVec 3} {g : BitVec 7} {t : OpTag}

theorem fits_of_lookup : lookup o f g = some t → t.opcode = o ∧ t.Fits f g := by
  cases o <;> simp only [lookup, lookupOp, lookupOpImm, lookupShiftLeftImm, lookupShiftRightImm, lookupLoad, lookupStore,
    lookupBranch, lookupJalr]
  -- one goal per row of the tables: the row found fixes just the fields it was found by
  all_goals repeat' split
  all_goals rintro ⟨⟩
  all_goals exact ⟨rfl, by rintro _ ⟨⟩ <;> rfl, by rintro _ ⟨⟩ <;> rfl⟩

theorem lookup_of_fits (fits : t.Fits f g) : lookup t.opcode f g = some t := by
  obtain ⟨h3, h7⟩ := fits
  cases t
  case lui | auipc | jal => rfl
  case add | sub | sll | slt | sltu | xor | srl | sra | or | and | slli | srli | srai =>
    cases h3 _ rfl
    cases h7 _ rfl
    rfl
  all_goals
    cases h3 _ rfl
    rfl

theorem lookup_eq_some : lookup o f g = some t ↔ t.opcode = o ∧ t.Fits f g :=
  ⟨fits_of_lookup, fun ⟨opcode, fits⟩ => opcode ▸ lookup_of_fits fits⟩
end

/-- The dispatch mux answers a row exactly where the word has the fields that the row fixes. -/
theorem dispatch_eq_op_iff_matches {extra : List (BitVec 7)} {w : Word} {d : DispatchOutput} :
    dispatch extra w = .op d ↔ ∃ t : OpTag, t.Matches w ∧ dispatchOutput t w = d := by
  simp only [dispatch_eq_op, tagOf_eq_lookup, lookup_eq_some, opcodeOf_eq_some]
  constructor
  · rintro ⟨o, t, opcode, ⟨rfl, fits⟩, output⟩
    exact ⟨t, ⟨opcode, fits⟩, output⟩
  · rintro ⟨t, ⟨opcode, fits⟩, output⟩
    exact ⟨t.opcode, t, opcode, ⟨rfl, fits⟩, output⟩

theorem decode_eq_instr_iff_matches {extra : List (BitVec 7)} {w : Word} {i : Instr} :
    decode extra w = .instr i ↔ ∃ t : OpTag, t.Matches w ∧ (dispatchOutput t w).instr = i := by
  simp only [decode_eq_instr, dispatch_eq_op_iff_matches]
  constructor
  · rintro ⟨_, ⟨t, fields, rfl⟩, output⟩
    exact ⟨t, fields, output⟩
  · rintro ⟨t, fields, output⟩
    exact ⟨_, ⟨t, fields, rfl⟩, output⟩

theorem OpTag.Matches.decode_eq {t : OpTag} {w : Word} (fields : t.Matches w) (extra : List (BitVec 7)) :
    decode extra w = .instr (dispatchOutput t w).instr :=
  decode_eq_instr_iff_matches.mpr ⟨t, fields, rfl⟩

@[simp] theorem tag_instr (d : DispatchOutput) : d.instr.tag = d.tag := by
  obtain ⟨t, rd, rs1, rs2, imm, shamt⟩ := d
  cases t <;> rfl

/-- A row selects a word exactly when the decoder answers an instruction of that row. -/
theorem selects_iff_decode {t : OpTag} {w : Word} (extra : List (BitVec 7)) :
    t.selects w ↔ ∃ i, decode extra w = .instr i ∧ i.tag = t := by
  rw [OpTag.selects_iff_matches]
  constructor
  · intro fields
    exact ⟨_, fields.decode_eq extra, tag_instr _⟩
  · rintro ⟨i, decoded, rfl⟩
    obtain ⟨t, fields, rfl⟩ := decode_eq_instr_iff_matches.mp decoded
    rwa [tag_instr]

theorem decode_illegal_iff_no_instr {extra : List (BitVec 7)} {w : Word} :
    (∃ reason, decode extra w = .illegal reason) ↔ ∀ i, decode extra w ≠ .instr i := by
  cases decode extra w <;> simp

theorem no_row_selects_iff_illegal (extra : List (BitVec 7)) (w : Word) :
    (∀ t : OpTag, ¬ t.selects w) ↔ ∃ reason, decode extra w = .illegal reason := by
  simp only [decode_illegal_iff_no_instr, selects_iff_decode extra]
  exact ⟨fun none i decoded => none i.tag ⟨i, decoded, rfl⟩, fun none t ⟨i, decoded, _⟩ => none i decoded⟩

/-- Settles O3: both readings say that the word has the fields a row fixes (`OpTag.selects_iff_matches`,
`decode_eq_instr_iff_matches`); the decoder answers one instruction, so two rows that select a word are its row. -/
theorem dispatchAgreesWithOpcodeTable : Obligations.DispatchAgreesWithOpcodeTable := by
  intro extra w
  refine ⟨fun t => selects_iff_decode extra, fun t u selectsT selectsU => ?oneRow, no_row_selects_iff_illegal extra w⟩
  case oneRow =>
    obtain ⟨i, decodedI, rfl⟩ := (selects_iff_decode extra).mp selectsT
    obtain ⟨j, decodedJ, rfl⟩ := (selects_iff_decode extra).mp selectsU
    rw [Decoded.instr.inj (decodedI.symm.trans decodedJ)]

end Sys2Proof
end

section
namespace Sys2Proof

/-! ### The instruction read from an encoded word (30_encoding.md R94 to R105) -/

/-- An encoded instruction has the fields of its own row. -/
theorem matches_encode (i : Instr) : i.tag.Matches (encode i) := by
  rw [← OpTag.selects_iff_matches]
  cases i
  case add | sub | sll | slt | sltu | xor | srl | sra | or | and => exact (encodeR_and_mask ..).trans rfl
  case slli | srli | srai => exact (encodeShift_and_mask ..).trans rfl
  case lui | auipc => exact (encodeU_and_mask ..).trans rfl
  case jal => exact (encodeJ_and_mask ..).trans rfl
  case beq | bne | blt | bge | bltu | bgeu => exact (encodeB_and_mask ..).trans rfl
  case sb | sh | sw => exact (encodeS_and_mask ..).trans rfl
  all_goals exact (encodeI_and_mask ..).trans rfl

section
variable (f7 : BitVec 7) (f3 : BitVec 3) (rd rs1 rs2 : Reg) (o : Opcode)

theorem immField_encodeI (imm : BitVec 12) : immField (immI (encodeI imm rs1 f3 rd o)) = imm := by
  rw [immField_immI, decodeI_encodeI]

theorem immField_encodeS (imm : BitVec 12) : immField (immS (encodeS imm rs2 rs1 f3 o)) = imm := by
  rw [immField_immS, decodeS_encodeS, SType.imm, immS_join]

theorem shamt_encodeI (shamt : BitVec 5) : (decodeI (encodeI (f7 ++ shamt) rs1 f3 rd o)).imm4_0 = shamt := by
  rw [decodeI_encodeI]
  exact extractLsb'_append_low ..

theorem upperField_encodeU (imm : BitVec 20) : upperField (immU (encodeU imm rd o)) = imm := by
  rw [upperField_immU, decodeU_encodeU]

theorem branchField_encodeB {offset : BitVec 13} (even : evenOffset offset = true) :
    branchField (immB (encodeB offset rs2 rs1 f3 o)) = offset := by
  rw [branchField_immB, decodeB_encodeB, BType.offset, offsetB_join offset even]

theorem jalField_encodeJ {offset : BitVec 21} (even : evenOffset offset = true) :
    jalField (immJ (encodeJ offset rd o)) = offset := by
  rw [jalField_immJ, decodeJ_encodeJ, JType.offset, offsetJ_join offset even]
end

/-- The mux output of an encoded instruction, read as the instruction of its row, holds every operand. -/
theorem instr_dispatchOutput_encode {i : Instr} (wf : i.wf = true) : (dispatchOutput i.tag (encode i)).instr = i := by
  cases i <;> simp only [Instr.tag, encode, dispatchOutput, DispatchOutput.instr, OpTag.format, immMux]
  case add | sub | sll | slt | sltu | xor | srl | sra | or | and => simp only [decodeR_encodeR]
  case slli | srli | srai => simp only [rd_encodeI, rs1_encodeI, shamt_encodeI]
  case lui | auipc => simp only [rd_encodeU, upperField_encodeU]
  case jal => simp only [rd_encodeJ, jalField_encodeJ _ _ wf]
  case beq | bne | blt | bge | bltu | bgeu => simp only [rs1_encodeB, rs2_encodeB, branchField_encodeB _ _ _ _ wf]
  case sb | sh | sw => simp only [rs1_encodeS, rs2_encodeS, immField_encodeS]
  all_goals simp only [rd_encodeI, rs1_encodeI, immField_encodeI]

/-- Settles O1: the encoded word has the fields of the instruction's row (`matches_encode`), so the decoder answers the
instruction of that row's mux output, which is the one encoded (`instr_dispatchOutput_encode`). -/
theorem encodeThenDecodeIsIdentity : Obligations.EncodeThenDecodeIsIdentity := by
  intro extra i wf
  rw [(matches_encode i).decode_eq extra, instr_dispatchOutput_encode wf]

/-! ### The word of a decoded instruction -/

section
variable {w : Word} {o : Opcode} {f3 : BitVec 3} {f7 : BitVec 7} (opcode : opcodeField w = o.bits)
  (funct3 : w.extractLsb' 12 3 = f3) (funct7 : w.extractLsb' 25 7 = f7)

include opcode

theorem encodeU_of_fields : encodeU (upperField (immU w)) (decodeR w).rd o = w := by
  rw [upperField_immU]
  exact encodeU_decodeU w o opcode

theorem encodeJ_of_fields : encodeJ (jalField (immJ w)) (decodeR w).rd o = w := by
  rw [jalField_immJ]
  exact encodeJ_decodeJ w o opcode

include funct3

theorem encodeI_of_fields : encodeI (immField (immI w)) (decodeR w).rs1 f3 (decodeR w).rd o = w := by
  subst funct3
  rw [immField_immI]
  exact encodeI_decodeI w o opcode

theorem encodeS_of_fields : encodeS (immField (immS w)) (decodeR w).rs2 (decodeR w).rs1 f3 o = w := by
  subst funct3
  rw [immField_immS]
  exact encodeS_decodeS w o opcode

theorem encodeB_of_fields : encodeB (branchField (immB w)) (decodeR w).rs2 (decodeR w).rs1 f3 o = w := by
  subst funct3
  rw [branchField_immB]
  exact encodeB_decodeB w o opcode

include funct7

theorem encodeR_of_fields : encodeR f7 (decodeR w).rs2 (decodeR w).rs1 f3 (decodeR w).rd o = w := by
  subst funct3 funct7
  exact encodeR_decodeR w o opcode

theorem encodeShift_of_fields : encodeI (f7 ++ (decodeI w).imm4_0) (decodeR w).rs1 f3 (decodeR w).rd o = w := by
  subst funct3 funct7
  exact (congrArg (encodeI · _ _ _ _) (IType.imm_eq_views w)).trans (encodeI_decodeI w o opcode)
end

theorem encode_instr_of_matches {t : OpTag} {w : Word} (fields : t.Matches w) : encode (dispatchOutput t w).instr = w := by
  obtain ⟨opcode, h3, h7⟩ := fields
  cases t
  case add | sub | sll | slt | sltu | xor | srl | sra | or | and => exact encodeR_of_fields opcode (h3 _ rfl) (h7 _ rfl)
  case slli | srli | srai => exact encodeShift_of_fields opcode (h3 _ rfl) (h7 _ rfl)
  case lui | auipc => exact encodeU_of_fields opcode
  case jal => exact encodeJ_of_fields opcode
  case beq | bne | blt | bge | bltu | bgeu => exact encodeB_of_fields opcode (h3 _ rfl)
  case sb | sh | sw => exact encodeS_of_fields opcode (h3 _ rfl)
  all_goals exact encodeI_of_fields opcode (h3 _ rfl)

/-- Only a branch or JAL can be ill formed, and the offset that a word gives them is even. -/
theorem wf_instr_dispatchOutput (t : OpTag) (w : Word) : (dispatchOutput t w).instr.wf = true := by
  have evenB : evenOffset (branchField (immB w)) = true := branchField_immB w ▸ evenOffset_decodeB w
  have evenJ : evenOffset (jalField (immJ w)) = true := jalField_immJ w ▸ evenOffset_decodeJ w
  cases t
  case beq | bne | blt | bge | bltu | bgeu => exact evenB
  case jal => exact evenJ
  all_goals rfl

/-- Settles O2: what decodes is the instruction of a row whose fields the word has, and these fields encode back to the
word. -/
theorem decodeThenEncodeIsIdentity : Obligations.DecodeThenEncodeIsIdentity := by
  intro extra w i decoded
  obtain ⟨t, fields, rfl⟩ := decode_eq_instr_iff_matches.mp decoded
  exact ⟨encode_instr_of_matches fields, wf_instr_dispatchOutput t w⟩

end Sys2Proof
end

section
namespace Sys2Proof.Machine

/-! ### What dispatch puts out, and what exec does with it (30_encoding.md R107, R108, R124, R125) -/

/-- The opcode of a word with a row's fields selects that row's format. -/
theorem format_of_matches {t : OpTag} {w : Word} (fields : t.Matches w) :
    (opcodeOf (opcodeField w)).bind Opcode.format = some t.format := by
  rw [fields.opcode, opcodeOf_bits, Option.bind_some]
  cases t <;> rfl

/-! The immediate operands are the mux output again: the encoded field of an instruction loses nothing of it (R108). -/

theorem immOperand_immI (w : Word) : immOperand (immField (immI w)) = immI w := by
  rw [immField_immI]; rfl
theorem immOperand_immS (w : Word) : immOperand (immField (immS w)) = immS w := by
  rw [immField_immS]; rfl
theorem upperOperand_immU (w : Word) : upperOperand (upperField (immU w)) = immU w := by
  rw [upperField_immU]; rfl
theorem sext_branchField_immB (w : Word) : sext 13 (branchField (immB w)) = immB w := by
  rw [branchField_immB]; rfl
theorem sext_jalField_immJ (w : Word) : sext 21 (jalField (immJ w)) = immJ w := by
  rw [jalField_immJ]; rfl

/-- The instruction of a mux output reads no immediate, or the mux output's. -/
theorem immediateOf_instr (t : OpTag) (w : Word) : immediateOf (dispatchOutput t w).instr = none ∨
    immediateOf (dispatchOutput t w).instr = some (t.format, immMux t.format w) := by
  cases t
  case add | sub | sll | slt | sltu | xor | srl | sra | or | and | slli | srli | srai => exact .inl rfl
  case lui | auipc => exact .inr (congrArg (fun v => some (Format.U, v)) (upperOperand_immU w))
  case jal => exact .inr (congrArg (fun v => some (Format.J, v)) (sext_jalField_immJ w))
  case beq | bne | blt | bge | bltu | bgeu => exact .inr (congrArg (fun v => some (Format.B, v)) (sext_branchField_immB w))
  case sb | sh | sw => exact .inr (congrArg (fun v => some (Format.S, v)) (immOperand_immS w))
  all_goals exact .inr (congrArg (fun v => some (Format.I, v)) (immOperand_immI w))

/-- What exec of a mux output's instruction does is the behaviour of that output: the operand built from the instruction's
encoded field is the mux output's immediate. -/
theorem exec_instr_eq_behaviourOf (t : OpTag) (w : Word) (s : State) :
    exec (dispatchOutput t w).instr s = finish (dispatchOutput t w).instr s (behaviourOf (dispatchOutput t w) s) := by
  cases t
  case add | sub | sll | slt | sltu | xor | srl | sra | or | and | slli | srli | srai => rfl
  case addi | slti | sltiu | xori | ori | andi =>
    exact congrArg (fun v => finish _ s (aluBehaviour _ _ _ v)) (immOperand_immI w)
  case lui =>
    have zeroPlus : 0 + upperOperand (upperField (immU w)) = immU w := (BitVec.zero_add _).trans (upperOperand_immU w)
    exact congrArg (fun v => finish _ s (.done (Effect.writeRd _ v))) zeroPlus
  case auipc => exact congrArg (fun v => finish _ s (aluBehaviour _ _ _ v)) (upperOperand_immU w)
  case jal => exact congrArg (fun v => finish _ s (transfer (s.pc + v) _)) (sext_jalField_immJ w)
  case jalr => exact congrArg (fun v => finish _ s (transfer ((s.x _ + v) &&& 0xFFFFFFFE#32) _)) (immOperand_immI w)
  case beq | bne | blt | bge | bltu | bgeu =>
    exact congrArg (fun v => finish _ s (branch _ (s.pc + v))) (sext_branchField_immB w)
  case lb | lh | lw | lbu | lhu =>
    exact congrArg (fun v => finish _ s (loadBehaviour _ _ (s.x _ + v) s)) (immOperand_immI w)
  case sb | sh | sw => exact congrArg (fun v => finish _ s (storeBehaviour _ _ (s.x _ + v) s)) (immOperand_immS w)

/-- Settles O9: a word that dispatches has the fields of its row, so the opcode selects the row's format; the other fields of
the output are the word's by definition, and exec reads the mux immediate by `exec_instr_eq_behaviourOf`. -/
theorem behaviourReadsTheImmediateMux : Obligations.BehaviourReadsTheImmediateMux := by
  intro extra w
  refine ⟨fun d dispatched => ?output, fun i f v decoded reads => ?immediate⟩
  case output =>
    obtain ⟨t, fields, rfl⟩ := dispatch_eq_op_iff_matches.mp dispatched
    exact ⟨⟨t.format, format_of_matches fields, rfl⟩, rfl, rfl, rfl, rfl, fields.decode_eq extra,
      exec_instr_eq_behaviourOf t w⟩
  case immediate =>
    obtain ⟨t, fields, rfl⟩ := decode_eq_instr_iff_matches.mp decoded
    obtain none | some := immediateOf_instr t w
    · cases none.symm.trans reads
    · cases some.symm.trans reads
      exact ⟨rfl, format_of_matches fields⟩

end Sys2Proof.Machine
end

section
namespace Sys2Proof.Machine

/-! ### The ways a step goes (10_state.md R41; 60_exceptions.md R251, R256) -/

/-- A fault leaves the state that `haltedBy` describes with the record's fields. -/
theorem takeFault_eq_haltedBy (c : Cause) (inst : Option Word) (s : State) :
    takeFault c inst s = haltedBy s c.code c.reason inst c.addr := rfl

section
variable {s : State} (running : s.run = .running)
include running

theorem step_of_fetch_none (fetch : ifetch s = none) : step s = .next (takeFault (.fetchOutOfRange s.pc) none s) := by
  simp only [step, running, fetch]

theorem step_of_illegal {w : Word} {reason : IllegalReason} (fetch : ifetch s = some w)
    (illegal : decode s.cfg.extraOpcodeTags w = .illegal reason) :
    step s = .next (takeFault (.illegalInstruction reason) (some w) s) := by
  simp only [step, running, fetch, illegal]

theorem step_of_instr {w : Word} {i : Instr} (fetch : ifetch s = some w)
    (decoded : decode s.cfg.extraOpcodeTags w = .instr i) : step s = exec i s := by
  simp only [step, running, fetch, decoded]
end

/-- Settles O16: the fetch is in range and answers the word that decodes. -/
theorem stepRunsTheDecodedInstruction : Obligations.StepRunsTheDecodedInstruction :=
  fun _ _ running inRange decoded => step_of_instr running (ifetch_eq_some.mpr ⟨inRange, rfl⟩) decoded

/-- Settles O18: the fetch is in range and answers the word that is illegal. -/
theorem illegalWordHaltsTheBlock : Obligations.IllegalWordHaltsTheBlock := by
  intro s reason running inRange illegal
  rw [step_of_illegal running (ifetch_eq_some.mpr ⟨inRange, rfl⟩) illegal, takeFault_eq_haltedBy]
  rfl

/-- Settles O19: past the instruction store the fetch answers no word. -/
theorem fetchOutOfRangeHaltsTheBlock : Obligations.FetchOutOfRangeHaltsTheBlock := by
  intro s running outOfRange
  rw [step_of_fetch_none running (ifetch_eq_none.mpr outOfRange), takeFault_eq_haltedBy]
  rfl

/-! ### A placed word -/

theorem ifetch_placeWord (s : State) (w : Word) : ifetch (s.placeWord w) = some w := by
  rw [ifetch_eq_some, ← wordIndex_eq]
  exact ⟨(Nat.lt_succ_self _).trans_le (Nat.le_max_right ..), (Memory.word_writeWord ..).trans (if_pos rfl)⟩

/-- Settles O17: the fetch answers the placed word, and placing it leaves the extra tags alone. -/
theorem placedWordRunsNext : Obligations.PlacedWordRunsNext := by
  intro s w i small decoded
  have placed : s.withFetchWord 32 w = s.placeWord (BitVec.ofNat 32 w) := by
    rw [State.withFetchWord, Nat.mod_eq_of_lt small]
  rw [placed]
  exact step_of_instr (s.placeWord_run _) (ifetch_placeWord s _) decoded

/-! ### The first step with nothing loaded (30_encoding.md R129) -/

/-- Settles O30: the fetch at 0 answers the unwritten word, and the opcode 0 is no named one. -/
theorem nothingLoadedHaltsAtOnce : Obligations.NothingLoadedHaltsAtOnce := by
  intro c nonempty
  have inRange : 0 < c.imemWords := nonempty
  have fetch : ifetch (State.resetOf c) = some 0#32 := ifetch_eq_some.mpr ⟨by simpa using inRange, by simp⟩
  have unnamed : opcodeOf (opcodeField 0#32) = none := by decide
  rw [step_of_illegal rfl fetch (decode_of_opcodeOf_eq_none c.extraOpcodeTags unnamed), takeFault_eq_haltedBy]
  rfl

/-! ### Every outcome of a step (60_exceptions.md R256 to R258) -/

/-- An instruction ends with its effect committed, or with the fault it raises. -/
theorem exec_next (i : Instr) (s : State) : ∃ t, exec i s = .next t ∧
    ((∃ e : Effect, t = s.commit e) ∨ ∃ c : Cause, t = takeFault c (some (encode i)) s) := by
  obtain ⟨b, ends, -, -⟩ := exec_eq_finish i s
  cases b with
  | done e => exact ⟨_, ends.trans (finish_done i s e), .inl ⟨e, rfl⟩⟩
  | raise c => exact ⟨_, ends.trans (finish_raise i s c), .inr ⟨c, rfl⟩⟩

theorem step_next {s : State} (running : s.run = .running) : ∃ t, step s = .next t ∧
    (t.run = .running ∨ ∃ (c : Cause) (inst : Option Word), t = takeFault c inst s) := by
  cases fetch : ifetch s with
  | none => exact ⟨_, step_of_fetch_none running fetch, .inr ⟨_, _, rfl⟩⟩
  | some w =>
    cases decoded : decode s.cfg.extraOpcodeTags w with
    | illegal reason => exact ⟨_, step_of_illegal running fetch decoded, .inr ⟨_, _, rfl⟩⟩
    | instr i =>
      obtain ⟨t, next, ⟨e, rfl⟩ | ⟨c, rfl⟩⟩ := exec_next i s
      · exact ⟨_, (step_of_instr running fetch decoded).trans next, .inl ((s.commit_run e).trans running)⟩
      · exact ⟨_, (step_of_instr running fetch decoded).trans next, .inr ⟨c, _, rfl⟩⟩

/-- Settles O21: a step completes, with the run state as it was, or takes a fault, which writes nothing else (`step_next`). -/
theorem everyRunningStateSteps : Obligations.EveryRunningStateSteps := by
  intro s running
  obtain ⟨t, next, completed | ⟨c, inst, rfl⟩⟩ := step_next running
  · exact ⟨t, next, .inl completed⟩
  · exact ⟨_, next, .inr ⟨_, rfl, rfl, rfl⟩⟩

/-! ### The record of a fault (60_exceptions.md R251) -/

/-- Which causes have which code: a reason and no address for code 2 alone, code 1 for a fetch past the store alone. -/
theorem Cause.code_shape (c : Cause) : c.code.number ∈ [0, 1, 2, 4, 5, 6, 7] ∧
    (c.reason = none ↔ c.code.number ≠ 2) ∧
    (c.addr = none ↔ c.code.number = 2) ∧ (c.code.number = 1 ↔ ∃ pc, c = .fetchOutOfRange pc) := by
  rcases c with _ | _ | _ | ⟨_ | _, _⟩ | ⟨_ | _, _⟩ <;> simp [Cause.code, Cause.reason, Cause.addr, FaultCode.number]

/-- No instruction raises the fault of a fetch. -/
theorem Cause.OfExecution.code_ne_one {c : Cause} (own : c.OfExecution) : c.code.number ≠ 1 := by
  obtain ⟨-, -, -, fetchFault⟩ := c.code_shape
  rw [Ne, fetchFault]
  rintro ⟨pc, rfl⟩
  exact own

/-- What a step that halts the block recorded: a fetch past the store, which has no word, or another fault of the word
fetched. -/
theorem record_cases {s t : State} {record : FaultRecord} (next : step s = .next t) (halted : t.run = .halted record) :
    record = faultRecord (.fetchOutOfRange s.pc) s.pc none ∨
      ∃ w c, ifetch s = some w ∧ c.code.number ≠ 1 ∧ record = faultRecord c s.pc (some w) := by
  obtain ⟨running, ⟨-, rfl⟩ | ⟨w, fetch, ⟨reason, -, rfl⟩ | ⟨i, decoded, ends⟩⟩⟩ := step_cases next
  · exact .inl (RunState.halted.inj halted).symm
  · exact .inr ⟨w, .illegalInstruction reason, fetch, (by decide : 2 ≠ 1), (RunState.halted.inj halted).symm⟩
  · obtain ⟨e, -, -, rfl⟩ | ⟨c, own, rfl⟩ := exec_cases ends
    · rw [State.commit_run, running] at halted
      cases halted
    · obtain ⟨encoded, -⟩ := decodeThenEncodeIsIdentity _ w i decoded
      rw [encoded] at halted
      exact .inr ⟨w, c, fetch, own.code_ne_one, (RunState.halted.inj halted).symm⟩

/-- Settles O22: the cause that `record_cases` gives has the shape of `Cause.code_shape`, and the word is there but for a
fetch past the store. -/
theorem faultRecordHasItsShape : Obligations.FaultRecordHasItsShape := by
  intro s t record next halted
  obtain rfl | ⟨w, c, fetch, notFetch, rfl⟩ := record_cases next halted
  · obtain ⟨number, reason, addr, -⟩ := Cause.code_shape (.fetchOutOfRange s.pc)
    exact ⟨number, reason, rfl, ⟨fun _ => rfl, fun _ => rfl⟩, nofun, addr, fun _ => rfl⟩
  · obtain ⟨number, reason, addr, -⟩ := c.code_shape
    obtain ⟨-, word⟩ := ifetch_eq_some.mp fetch
    refine ⟨number, reason, rfl, ⟨nofun, fun one => absurd one notFetch⟩, fun w' same => ?fetched, addr,
      fun one => absurd one notFetch⟩
    case fetched => rw [word, ← Option.some.inj same]

end Sys2Proof.Machine
end

section
namespace Sys2Proof

/-! ### Illegal words (30_encoding.md R111, R112, R123) -/

/-- The ten named opcode values, as the spec lists them. -/
theorem mem_namedOpcodes {b : BitVec 7} :
    b ∈ [0x03#7, 0x13#7, 0x17#7, 0x23#7, 0x33#7, 0x37#7, 0x63#7, 0x67#7, 0x6F#7, 0x73#7] ↔ opcodeOf b ≠ none := by
  revert b; decide

/-- The opcode values under which funct fields are looked up. -/
theorem mem_functOpcodes {b : BitVec 7} : b ∈ [0x13#7, 0x33#7, 0x03#7, 0x23#7, 0x63#7, 0x67#7] ↔
    ∃ o ∈ [Opcode.opImm, .op, .load, .store, .branch, .jalr], opcodeOf b = some o := by
  revert b; decide

theorem unnamedOpcode_of_mem {extra : List (BitVec 7)} {b : BitVec 7} (hb : b ∈ extra) :
    unnamedOpcode extra b = .unimplemented :=
  if_pos hb

section
variable {extra : List (BitVec 7)} {w : Word}

theorem decode_of_system (system : opcodeOf (opcodeField w) = some .system) : decode extra w = .illegal .unimplemented := by
  rw [decode_eq_illegal, dispatch, system]

/-- Why a word can be illegal: an opcode without a name, SYSTEM, or funct fields with no row. -/
theorem illegal_cases {reason : IllegalReason} (illegal : decode extra w = .illegal reason) :
    (opcodeOf (opcodeField w) = none ∧ reason = unnamedOpcode extra (opcodeField w)) ∨
      (opcodeOf (opcodeField w) = some .system ∧ reason = .unimplemented) ∨
      ((∃ o ∈ [Opcode.opImm, .op, .load, .store, .branch, .jalr], opcodeOf (opcodeField w) = some o) ∧
        reason = .unknownFunct) := by
  rw [decode_eq_illegal, dispatch] at illegal
  cases named : opcodeOf (opcodeField w) with
  | none =>
    rw [named] at illegal
    exact .inl ⟨rfl, (Dispatched.illegal.inj illegal).symm⟩
  | some o =>
    rw [named] at illegal
    cases o
    case system => exact .inr (.inl ⟨rfl, (Dispatched.illegal.inj illegal).symm⟩)
    case jal | lui | auipc => cases illegal
    all_goals exact .inr (.inr ⟨⟨_, by decide, rfl⟩, (orUnknownFunct_eq_illegal.mp illegal).2⟩)

theorem decode_unknownOpcode_iff :
    decode extra w = .illegal .unknownOpcode ↔ opcodeOf (opcodeField w) = none ∧ opcodeField w ∉ extra := by
  constructor
  · intro illegal
    obtain ⟨unnamed, reason⟩ | ⟨-, ⟨⟩⟩ | ⟨-, ⟨⟩⟩ := illegal_cases illegal
    refine ⟨unnamed, fun mem => ?_⟩
    cases reason.trans (unnamedOpcode_of_mem mem)
  · rintro ⟨unnamed, notMem⟩
    rw [decode_of_opcodeOf_eq_none extra unnamed, unnamedOpcode_of_notMem notMem]

theorem decode_unimplemented_iff : decode extra w = .illegal .unimplemented ↔
    opcodeOf (opcodeField w) = some .system ∨ (opcodeOf (opcodeField w) = none ∧ opcodeField w ∈ extra) := by
  constructor
  · intro illegal
    obtain ⟨unnamed, reason⟩ | ⟨system, -⟩ | ⟨-, ⟨⟩⟩ := illegal_cases illegal
    · refine .inr ⟨unnamed, Classical.byContradiction fun notMem => ?_⟩
      cases reason.trans (unnamedOpcode_of_notMem notMem)
    · exact .inl system
  · rintro (system | ⟨unnamed, mem⟩)
    · exact decode_of_system system
    · rw [decode_of_opcodeOf_eq_none extra unnamed, unnamedOpcode_of_mem mem]

theorem decode_unknownFunct_iff : decode extra w = .illegal .unknownFunct ↔
    (∃ o ∈ [Opcode.opImm, .op, .load, .store, .branch, .jalr], opcodeOf (opcodeField w) = some o) ∧
      ∀ t : OpTag, ¬ t.selects w := by
  rw [no_row_selects_iff_illegal extra w]
  constructor
  · intro illegal
    obtain ⟨unnamed, reason⟩ | ⟨-, ⟨⟩⟩ | ⟨funct, -⟩ := illegal_cases illegal
    · unfold unnamedOpcode at reason
      split at reason <;> cases reason
    · exact ⟨funct, _, illegal⟩
  · rintro ⟨⟨o, looksUp, named⟩, reason, illegal⟩
    obtain ⟨unnamed, -⟩ | ⟨system, -⟩ | ⟨-, rfl⟩ := illegal_cases illegal
    · cases unnamed.symm.trans named
    · cases system.symm.trans named
      exact absurd looksUp (by decide)
    · exact illegal
end

/-- Settles O4: each reason by its own characterization (`decode_unknownOpcode_iff`, `decode_unimplemented_iff`,
`decode_unknownFunct_iff`); an extra tag, being no named opcode, is Unimplemented. -/
theorem illegalReasonOfEveryWord : Obligations.IllegalReasonOfEveryWord := by
  intro extra w disjoint
  have unnamed_of_extra : opcodeField w ∈ extra → opcodeOf (opcodeField w) = none := fun mem =>
    Classical.byContradiction fun named => disjoint _ mem (mem_namedOpcodes.mpr named)
  refine ⟨?unknownOpcode, ?unimplemented, ?unknownFunct, fun s reason tags running fetch illegal => ?fault⟩
  case unknownOpcode => rw [mem_namedOpcodes, not_not, decode_unknownOpcode_iff]; rfl
  case unimplemented =>
    rw [decode_unimplemented_iff, opcodeOf_eq_some, and_iff_right_of_imp unnamed_of_extra]
    rfl
  case unknownFunct => rw [mem_functOpcodes, decode_unknownFunct_iff]; rfl
  case fault => exact ⟨_, _, Machine.step_of_illegal running fetch (tags ▸ illegal), rfl, rfl, rfl⟩

/-- Settles O6: 0x73 is SYSTEM; 0x0F is no named opcode, so its reason is `unnamedOpcode`'s. -/
theorem systemAndMiscMemAreIllegal : Obligations.SystemAndMiscMemAreIllegal := by
  intro extra w
  refine ⟨fun system => ?system, fun miscMem => ?miscMem⟩
  case system => exact decode_of_system (opcodeOf_eq_some.mpr system)
  case miscMem =>
    have opcode : opcodeField w = 0x0F#7 := miscMem
    have unnamed : opcodeOf (opcodeField w) = none := by rw [opcode]; rfl
    rw [decode_of_opcodeOf_eq_none extra unnamed, opcode, unnamedOpcode]

end Sys2Proof
end

section
namespace Sys2Proof.Machine

/-! ### The invariant (10_state.md R38; 20_memory.md R74) -/

theorem add_four_aligned {a : Word} (aligned : a.toNat % 4 = 0) : (a + 4).toNat % 4 = 0 := by
  rw [BitVec.toNat_add]
  have : (4 : Word).toNat = 4 := rfl
  omega

/-- A fault changes no field that the invariant speaks of. -/
theorem inv_takeFault {s : State} (inv : Inv s) (c : Cause) (inst : Option Word) : Inv (takeFault c inst s) := inv

/-- An effect with an aligned redirect and a store in range keeps the invariant. -/
theorem inv_commit {s : State} (inv : Inv s) {e : Effect} (ok : e.Ok s) : Inv (s.commit e) := by
  obtain ⟨config, pcAligned, imem, ⟨wf, within⟩⟩ := inv
  simp only [Inv, State.commit_cfg, State.commit_imem, State.commit_pc, State.commit_dmem]
  refine ⟨config, ?pc, imem, ?dmem⟩
  case pc =>
    cases redirect : e.redirect with
    | none => exact add_four_aligned pcAligned
    | some target => exact ok.redirect target redirect
  case dmem =>
    cases store : e.memWrite with
    | none => exact ⟨wf, within⟩
    | some w =>
      obtain ⟨-, inRange⟩ := ok.memWrite w store
      rw [← wordIndex_eq] at inRange
      exact ⟨wf_memWriteValue wf .., within_memWriteValue within inRange w.width w.value⟩

/-- Settles O27: a step takes a fault (`inv_takeFault`) or commits an effect of an instruction, which is one that a step may
commit (`inv_commit`). -/
theorem stepKeepsTheInvariant : Obligations.StepKeepsTheInvariant := by
  intro s t inv next
  obtain ⟨-, ⟨-, rfl⟩ | ⟨w, -, ⟨reason, -, rfl⟩ | ⟨i, -, ends⟩⟩⟩ := step_cases next
  · exact inv_takeFault inv ..
  · exact inv_takeFault inv ..
  · obtain ⟨e, ok, -, rfl⟩ | ⟨c, -, rfl⟩ := exec_cases ends
    · exact inv_commit inv ok
    · exact inv_takeFault inv ..

theorem inv_loadImage {c : Config} (ok : ConfigOk c) {image : List Word} (fits : image.length ≤ c.imemWords) :
    Inv ((State.resetOf c).loadImage image) := by
  have within : Memory.within [] c.imemWords := nofun
  exact ⟨ok, rfl, ⟨Memory.wf_writeWords Memory.wf_nil 0 image,
    Memory.within_writeWords within image (by simpa using fits)⟩, Memory.wf_nil, nofun⟩

/-- Settles O28: reset is the launch state of the empty image, and the parameters of `State.reset` are legal. -/
theorem resetMeetsTheInvariant : Obligations.ResetMeetsTheInvariant := by
  have reset : ∀ c : Config, ConfigOk c → Inv (State.resetOf c) := fun _ ok =>
    inv_loadImage (image := []) ok (Nat.zero_le _)
  exact ⟨reset, reset Config.atReset (by decide)⟩

theorem inv_of_reachable {s : State} (reachable : Reachable s) : Inv s := by
  induction reachable with
  | start cfg image ok fits => exact inv_loadImage ok fits
  | step s t _ next ih => exact stepKeepsTheInvariant s t ih next

/-- Settles O29: by induction on the run (`inv_of_reachable`). -/
theorem reachableStatesMeetTheInvariant : Obligations.ReachableStatesMeetTheInvariant := by
  intro s reachable
  obtain ⟨-, pcAligned, ⟨-, within⟩, -⟩ := inv_of_reachable reachable
  exact ⟨inv_of_reachable reachable, within, pcAligned⟩

/-! ### The state a run starts in (70_reset_and_hazards.md R280, R284) -/

/-- Settles O15: the words of the image by `Memory.word_writeWords`, the rest as reset leaves it. -/
theorem launchStateIsResetWithTheImage : Obligations.LaunchStateIsResetWithTheImage := by
  intro c image fits
  have imemWord : ∀ k, Memory.word (Memory.writeWords [] 0 image) k = image.getD k 0 := by
    intro k
    rw [Memory.word_writeWords]
    split
    · rfl
    · next past => rw [Memory.word_nil, List.getD_eq_default _ _ (by omega)]
  refine ⟨fun k => ?imem, fun k => ?dmem, rfl, State.x_resetOf c, rfl, rfl, rfl⟩
  case imem => exact congrArg (fun w => if k < c.imemWords then some w else none) (imemWord k)
  case dmem => exact congrArg (fun w => if k < c.dmemWords then some w else none) (Memory.word_nil k)

end Sys2Proof.Machine
end

section
namespace Sys2Proof.Machine

/-! ### The host's loop (70_reset_and_hazards.md R285, R289) -/

theorem hostRun_succ_of_step {s t : State} (next : step s = .next t) (k : Nat) :
    State.hostRun (k + 1) s = State.hostRun k t := by
  rw [State.hostRun, next]

theorem step_keeps_imem_cfg {s t : State} (next : step s = .next t) : t.imem = s.imem ∧ t.cfg = s.cfg := by
  obtain ⟨-, ⟨-, rfl⟩ | ⟨w, -, ⟨reason, -, rfl⟩ | ⟨i, -, ends⟩⟩⟩ := step_cases next
  · exact ⟨rfl, rfl⟩
  · exact ⟨rfl, rfl⟩
  · obtain ⟨e, -, -, rfl⟩ | ⟨c, -, rfl⟩ := exec_cases ends
    · exact ⟨s.commit_imem e, s.commit_cfg e⟩
    · exact ⟨rfl, rfl⟩

theorem hostRun_keeps_imem_cfg (k : Nat) (s : State) :
    (State.hostRun k s).imem = s.imem ∧ (State.hostRun k s).cfg = s.cfg := by
  induction k generalizing s with
  | zero => exact ⟨rfl, rfl⟩
  | succ k ih =>
    cases run : s.run with
    | halted record => rw [State.hostRun_of_step_fault (step_of_halted run)]; exact ⟨rfl, rfl⟩
    | running =>
      obtain ⟨t, next, -⟩ := step_next run
      rw [hostRun_succ_of_step next]
      obtain ⟨imem, cfg⟩ := ih t
      obtain ⟨imem', cfg'⟩ := step_keeps_imem_cfg next
      exact ⟨imem.trans imem', cfg.trans cfg'⟩

/-- Settles O24: the instruction store and the parameters are the same ones (`hostRun_keeps_imem_cfg`). -/
theorem instructionStoreNeverChanges : Obligations.InstructionStoreNeverChanges := by
  intro k s
  obtain ⟨imem, cfg⟩ := hostRun_keeps_imem_cfg k s
  exact ⟨fun a => by rw [imem], cfg⟩

/-! ### Safe runs -/

theorem SafeFor.running {k : Nat} {s : State} (safe : SafeFor k s) : s.run = .running := safe 0 (Nat.zero_le k)

/-- A safe run of k + 1 steps is a step and a safe run of k. -/
theorem safeFor_succ {k : Nat} {s t : State} (next : step s = .next t) : SafeFor (k + 1) s ↔ SafeFor k t := by
  constructor
  · intro safe j le
    rw [← hostRun_succ_of_step next]
    exact safe (j + 1) (Nat.succ_le_succ le)
  · intro safe j le
    cases j with
    | zero => exact (step_cases next).1
    | succ j =>
      rw [hostRun_succ_of_step next]
      exact safe j (Nat.le_of_succ_le_succ le)

theorem coreRun_succ_of_step (M : Host.Core) {s t : M.State} (next : M.step s = .next t) (k : Nat) :
    M.run (k + 1) s = M.run k t := by
  simp only [Host.Core.run, next]

/-- Settles O31: by induction on the bound, both take the same first step. -/
theorem hostRunAgreesWithCoreRun : Obligations.HostRunAgreesWithCoreRun := by
  intro k
  induction k with
  | zero => exact fun s _ => rfl
  | succ k ih =>
    intro s safe
    obtain ⟨t, next, -⟩ := step_next safe.running
    rw [hostRun_succ_of_step next]
    exact (coreRun_succ_of_step Sys2Proof.core next k).trans (ih t ((safeFor_succ next).mp safe))

/-! ### The steps of the host's loop -/

/-- From a Running state the loop takes its whole bound of steps, or stops at a fault within it. -/
theorem hostRun_takes_steps (k : Nat) {s : State} (running : s.run = .running) : ∃ j ≤ k,
    Steps j s (State.hostRun k s) ∧ ((State.hostRun k s).run = .running ∧ j = k ∨
      ∃ record, (State.hostRun k s).run = .halted record) := by
  induction k generalizing s with
  | zero => exact ⟨0, Nat.le_refl 0, .zero s, .inl ⟨running, rfl⟩⟩
  | succ k ih =>
    obtain ⟨t, next, completed | ⟨c, inst, rfl⟩⟩ := step_next running
    · obtain ⟨j, le, steps, ended⟩ := ih completed
      rw [hostRun_succ_of_step next]
      refine ⟨j + 1, Nat.succ_le_succ le, .succ _ _ _ _ next steps,
        ended.imp_left fun ⟨run, eq⟩ => ⟨run, congrArg _ eq⟩⟩
    · have stays : State.hostRun k (takeFault c inst s) = takeFault c inst s :=
        State.hostRun_of_step_fault (step_of_halted rfl) k
      rw [hostRun_succ_of_step next, stays]
      exact ⟨1, Nat.succ_le_succ (Nat.zero_le k), .succ _ _ _ _ next (.zero _), .inr ⟨_, rfl⟩⟩

/-- k steps to a Running state are the loop of bound k with no fault. -/
theorem steps_running_iff (k : Nat) (s t : State) :
    Steps k s t ∧ t.run = .running ↔ SafeFor k s ∧ State.hostRun k s = t := by
  induction k generalizing s with
  | zero =>
    constructor
    · rintro ⟨⟨⟩, running⟩
      exact ⟨fun j le => Nat.le_zero.mp le ▸ running, rfl⟩
    · rintro ⟨safe, rfl⟩
      exact ⟨.zero s, safe.running⟩
  | succ k ih =>
    constructor
    · rintro ⟨_ | ⟨_, _, u, _, next, rest⟩, running⟩
      rw [safeFor_succ next, hostRun_succ_of_step next]
      exact (ih u).mp ⟨rest, running⟩
    · rintro ⟨safe, ends⟩
      obtain ⟨u, next, -⟩ := step_next safe.running
      rw [safeFor_succ next] at safe
      rw [hostRun_succ_of_step next] at ends
      obtain ⟨rest, running⟩ := (ih u).mpr ⟨safe, ends⟩
      exact ⟨.succ _ _ _ _ next rest, running⟩

/-- Settles O32: the loop's first step (`hostRun_succ_of_step`), how far it gets (`hostRun_takes_steps`), and its runs with no
fault (`steps_running_iff`). -/
theorem hostRunTakesTheStepsOfTheBlock : Obligations.HostRunTakesTheStepsOfTheBlock :=
  ⟨fun k _ _ next => hostRun_succ_of_step next k, fun k _ running => hostRun_takes_steps k running, steps_running_iff⟩

end Sys2Proof.Machine
end

section
namespace Sys2Proof.Machine

/-! ### What an instruction leaves unchanged (10_state.md R33; 20_memory.md R74; 60_exceptions.md R256) -/

/-- A commit writes at most the register of the effect's register write. -/
theorem State.commit_x_of_ne (s : State) {e : Effect} {r : Reg} (other : e.rdWrite.map Prod.fst ≠ some r) :
    (s.commit e).x r = s.x r := by
  rw [State.commit_x]
  rcases write : e.rdWrite with _ | ⟨rd, v⟩
  · rfl
  · have ne : r ≠ rd := by rintro rfl; exact other (by rw [write]; rfl)
    exact (State.x_setX s rd v r).symm.trans (State.x_setX_of_ne s v ne)

/-- Settles O12: a commit leaves every register but the effect's alone, which is the one `rdOf` names; a fault leaves all. -/
theorem onlyTheDestinationRegisterChanges : Obligations.OnlyTheDestinationRegisterChanges := by
  intro i s t r ends other
  obtain ⟨e, -, of, rfl⟩ | ⟨c, -, rfl⟩ := exec_cases ends
  · obtain notRd | rfl := other
    · exact State.commit_x_of_ne s (of.rd ▸ notRd)
    · rfl
  · exact takeFault_x ..

/-- Settles O25: a commit changes the bytes of the effect's store alone, which are the ones `storeSpan` names; a fault changes
none. -/
theorem onlyStoredBytesChange : Obligations.OnlyStoredBytesChange := by
  intro i s t a ends outside
  obtain ⟨e, ok, of, rfl⟩ | ⟨c, -, rfl⟩ := exec_cases ends
  · rw [State.commit_dmem]
    cases store : e.memWrite with
    | none => rfl
    | some w =>
      obtain ⟨aligned, -⟩ := ok.memWrite w store
      have span : storeSpan s i = some (w.ea.toNat, w.width.bytes) := by rw [← of.span, store]; rfl
      exact (readByte_memWriteValue _ _ _ _ aligned a).trans (if_neg (outside _ _ span))
  · rfl

/-! ### The integer instructions -/

/-- An integer instruction ends with a write to rd, whatever the state. -/
theorem exec_of_isInteger {i : Instr} {rd : Reg} (integer : isInteger i = true) (dest : rdOf i = some rd) (s : State) :
    ∃ v, exec i s = .next (s.commit (Effect.writeRd rd v)) := by
  cases i
  case jal | jalr | beq | bne | blt | bge | bltu | bgeu | lb | lh | lw | lbu | lhu | sb | sh | sw => cases integer
  all_goals
    cases dest
    exact ⟨_, rfl⟩

/-- Settles O13: the write to x0 is discarded, and what is left of the commit is the pc. -/
theorem integerInstructionToX0OnlyAdvances : Obligations.IntegerInstructionToX0OnlyAdvances := by
  intro i s integer dest
  obtain ⟨v, ends⟩ := exec_of_isInteger integer dest s
  exact ends

/-! ### The data store and the rest of the state (20_memory.md section 1) -/

/-- A state with another data store. -/
def State.withData (s : State) (data : Memory) : State := { s with dmem := data }

/-- The registers x1..x31 are all that the field `regs` holds. -/
theorem State.regs_eq_of_sameRegs {s t : State} (same : SameRegs s t) : t.regs = s.regs := by
  refine Vector.ext fun k hk => ?_
  simpa [State.x, Fin.ext_iff] using same ⟨k + 1, by omega⟩

theorem AgreeButData.eq_withData {s t : State} (agree : AgreeButData s t) : t = s.withData t.dmem := by
  obtain ⟨cfg, sameRegs, pc, imem, run⟩ := agree
  have regs : t.regs = s.regs := State.regs_eq_of_sameRegs sameRegs
  cases t
  simp only at cfg regs pc imem run
  rw [State.withData, ← cfg, ← regs, ← pc, ← imem, ← run]

/-- An instruction that is no load behaves alike whatever the data store holds. -/
theorem exec_withData {i : Instr} (notLoad : isLoad i = false) (s : State) : ∃ b : Behaviour,
    exec i s = finish i s b ∧ ∀ data, exec i (s.withData data) = finish i (s.withData data) b := by
  cases i
  case lb | lh | lw | lbu | lhu => cases notLoad
  case jal | jalr => exact ⟨transfer _ _, rfl, fun _ => rfl⟩
  case beq | bne | blt | bge | bltu | bgeu => exact ⟨branch _ _, rfl, fun _ => rfl⟩
  case sb | sh | sw => exact ⟨storeBehaviour _ _ _ _, rfl, fun _ => rfl⟩
  all_goals exact ⟨aluBehaviour _ _ _ _, rfl, fun _ => rfl⟩

/-- One behaviour ends alike, but for the data, in states alike but for the data. -/
theorem agreeButData_of_finish {i : Instr} {s t t' : State} {b : Behaviour} {data : Memory}
    (ends : finish i s b = .next t) (ends' : finish i (s.withData data) b = .next t') : AgreeButData t t' := by
  cases b with
  | raise c =>
    obtain rfl := Host.Outcome.next.inj ends
    obtain rfl := Host.Outcome.next.inj ends'
    exact ⟨rfl, fun _ => rfl, rfl, rfl, rfl⟩
  | done e =>
    obtain rfl := Host.Outcome.next.inj ends
    obtain rfl := Host.Outcome.next.inj ends'
    refine ⟨?cfg, fun r => ?x, rfl, ?imem, ?run⟩
    case cfg => rw [State.commit_cfg, State.commit_cfg]; rfl
    case x => rw [State.commit_x, State.commit_x]; rfl
    case imem => rw [State.commit_imem, State.commit_imem]; rfl
    case run => rw [State.commit_run, State.commit_run]; rfl

/-- Settles O26: the second state is the first with another data store, where an instruction that is no load has one and the
same behaviour (`exec_withData`). -/
theorem dataReachesTheStateThroughLoadsAlone : Obligations.DataReachesTheStateThroughLoadsAlone := by
  intro i s s' t t' notLoad agree ends ends'
  obtain ⟨b, behaves, behaves'⟩ := exec_withData notLoad s
  rw [behaves] at ends
  rw [agree.eq_withData, behaves'] at ends'
  exact agreeButData_of_finish ends ends'

end Sys2Proof.Machine
end

section
namespace Sys2Proof.Machine

/-! ### How a word with a row's fields reads (30_encoding.md R94 to R105) -/

section
variable {f : BitVec 3} {g : BitVec 7}

theorem matches_of_fields {t : OpTag} {w : Word} (opcode : w.extractLsb' 0 7 = t.opcode.bits)
    (funct3 : t.funct3 = none ∨ t.funct3 = some (w.extractLsb' 12 3))
    (funct7 : t.funct7 = none ∨ t.funct7 = some (w.extractLsb' 25 7)) : t.Matches w := by
  refine ⟨opcode, fun f own => ?_, fun g own => ?_⟩
  · obtain none | same := funct3
    · cases none.symm.trans own
    · exact Option.some.inj (same.symm.trans own)
  · obtain none | same := funct7
    · cases none.symm.trans own
    · exact Option.some.inj (same.symm.trans own)

theorem readsAsR {mk : Reg → Reg → Reg → Instr} (t : OpTag) (h3 : t.funct3 = some f) (h7 : t.funct7 = some g)
    (reads : ∀ w, (dispatchOutput t w).instr = mk (decodeR w).rd (decodeR w).rs1 (decodeR w).rs2) :
    ReadsAsR t.opcode.bits f g mk := by
  rintro extra w opcode rfl rfl
  exact ((matches_of_fields opcode (.inr h3) (.inr h7)).decode_eq extra).trans (congrArg _ (reads w))

theorem readsAsI {mk : Reg → Reg → BitVec 12 → Instr} (t : OpTag) (h3 : t.funct3 = some f) (h7 : t.funct7 = none)
    (reads : ∀ w, (dispatchOutput t w).instr = mk (decodeR w).rd (decodeR w).rs1 (immField (immI w))) :
    ReadsAsI t.opcode.bits f mk := by
  rintro extra w opcode rfl
  rw [(matches_of_fields opcode (.inr h3) (.inl h7)).decode_eq extra, reads, immField_immI]
  rfl

theorem readsAsShift {mk : Reg → Reg → BitVec 5 → Instr} (t : OpTag) (ho : t.opcode = .opImm) (h3 : t.funct3 = some f)
    (h7 : t.funct7 = some g)
    (reads : ∀ w, (dispatchOutput t w).instr = mk (decodeR w).rd (decodeR w).rs1 (decodeI w).imm4_0) :
    ReadsAsShift f g mk := by
  rintro extra w opcode rfl rfl
  have own : w.extractLsb' 0 7 = t.opcode.bits := by rw [ho]; exact opcode
  exact ((matches_of_fields own (.inr h3) (.inr h7)).decode_eq extra).trans (congrArg _ (reads w))

theorem readsAsU {mk : Reg → BitVec 20 → Instr} (t : OpTag) (h3 : t.funct3 = none) (h7 : t.funct7 = none)
    (reads : ∀ w, (dispatchOutput t w).instr = mk (decodeR w).rd (upperField (immU w))) : ReadsAsU t.opcode.bits mk := by
  intro extra w opcode
  rw [(matches_of_fields opcode (.inl h3) (.inl h7)).decode_eq extra, reads, upperField_immU]
  rfl

theorem readsAsJ {mk : Reg → BitVec 21 → Instr} (t : OpTag) (h3 : t.funct3 = none) (h7 : t.funct7 = none)
    (reads : ∀ w, (dispatchOutput t w).instr = mk (decodeR w).rd (jalField (immJ w))) : ReadsAsJ t.opcode.bits mk := by
  intro extra w opcode
  rw [(matches_of_fields opcode (.inl h3) (.inl h7)).decode_eq extra, reads, jalField_immJ]
  rfl

theorem readsAsB {mk : Reg → Reg → BitVec 13 → Instr} (t : OpTag) (ho : t.opcode = .branch) (h3 : t.funct3 = some f)
    (h7 : t.funct7 = none)
    (reads : ∀ w, (dispatchOutput t w).instr = mk (decodeR w).rs1 (decodeR w).rs2 (branchField (immB w))) :
    ReadsAsB f mk := by
  rintro extra w opcode rfl
  have own : w.extractLsb' 0 7 = t.opcode.bits := by rw [ho]; exact opcode
  rw [(matches_of_fields own (.inr h3) (.inl h7)).decode_eq extra, reads, branchField_immB]
  rfl

theorem readsAsS {mk : Reg → Reg → BitVec 12 → Instr} (t : OpTag) (ho : t.opcode = .store) (h3 : t.funct3 = some f)
    (h7 : t.funct7 = none)
    (reads : ∀ w, (dispatchOutput t w).instr = mk (decodeR w).rs2 (decodeR w).rs1 (immField (immS w))) :
    ReadsAsS f mk := by
  rintro extra w opcode rfl
  have own : w.extractLsb' 0 7 = t.opcode.bits := by rw [ho]; exact opcode
  rw [(matches_of_fields own (.inr h3) (.inl h7)).decode_eq extra, reads, immField_immS]
  rfl
end

end Sys2Proof.Machine
end

section
namespace Sys2Proof.Machine

/-! ### What the ALU computes (40_integer_computational.md R140, R141) -/

section
variable (a b : Word)

theorem toNat_alu_add : (alu .add a b).toNat = (a.toNat + b.toNat) % 2 ^ 32 := BitVec.toNat_add a b

theorem toNat_alu_sub : ((alu .sub a b).toNat : Int) = (a.toNat - b.toNat : Int) % 2 ^ 32 := by
  have sub : (alu .sub a b).toNat = (2 ^ 32 - b.toNat + a.toNat) % 2 ^ 32 := BitVec.toNat_sub a b
  have := b.isLt
  omega

theorem toNat_boolWord (p : Bool) : (boolWord p).toNat = if p then 1 else 0 := by
  cases p <;> rfl

theorem toNat_alu_slt : (alu .slt a b).toNat = if a.toInt < b.toInt then 1 else 0 := by
  simp [alu, toNat_boolWord, BitVec.slt]

theorem toNat_alu_sltu : (alu .sltu a b).toNat = if a.toNat < b.toNat then 1 else 0 := by
  simp [alu, toNat_boolWord, BitVec.ult]

theorem getLsbD_alu_xor (k : Nat) : (alu .xor a b).getLsbD k = (a.getLsbD k != b.getLsbD k) := BitVec.getLsbD_xor
theorem getLsbD_alu_or (k : Nat) : (alu .or a b).getLsbD k = (a.getLsbD k || b.getLsbD k) := BitVec.getLsbD_or
theorem getLsbD_alu_and (k : Nat) : (alu .and a b).getLsbD k = (a.getLsbD k && b.getLsbD k) := BitVec.getLsbD_and

variable {b} {n k : Nat} (amount : shiftAmount b = n)
include amount

theorem getLsbD_alu_sll (inWord : k < 32) : (alu .sll a b).getLsbD k = if k < n then false else a.getLsbD (k - n) := by
  subst amount
  rw [alu, BitVec.getLsbD_shiftLeft]
  by_cases low : k < shiftAmount b <;> simp only [inWord, low, decide_true, decide_false, Bool.not_true, Bool.not_false,
    Bool.and_false, Bool.true_and, Bool.false_and, if_true, if_false]

theorem getLsbD_alu_srl : (alu .srl a b).getLsbD k = if k + n < 32 then a.getLsbD (k + n) else false := by
  subst amount
  rw [alu, BitVec.getLsbD_ushiftRight, Nat.add_comm]
  split
  · rfl
  · exact BitVec.getLsbD_of_ge _ _ (by omega)

theorem getLsbD_alu_sra (inWord : k < 32) :
    (alu .sra a b).getLsbD k = if k + n < 32 then a.getLsbD (k + n) else a.getLsbD 31 := by
  subst amount
  rw [alu, BitVec.getLsbD_sshiftRight, Nat.add_comm, BitVec.msb_eq_getLsbD_last, decide_eq_false (by omega)]
  rfl
end

/-! ### The operands of the immediate forms (30_encoding.md R100, R103, R105) -/

theorem toInt_immOperand (imm : BitVec 12) : (immOperand imm).toInt = imm.toInt := toInt_sext imm (by decide)

theorem toNat_immOperand (imm : BitVec 12) : ((immOperand imm).toNat : Int) = imm.toInt % 2 ^ 32 := by
  rw [← toInt_immOperand, BitVec.toInt_eq_toNat_cond]
  have := (immOperand imm).isLt
  split <;> omega

/-- Above bit 11 the immediate operand is a copy of bit 11. -/
theorem getLsbD_immOperand (imm : BitVec 12) {k : Nat} (inWord : k < 32) :
    (immOperand imm).getLsbD k = imm.getLsbD (min k 11) := by
  rw [immOperand, getLsbD_sext 12 imm (by decide) (by decide), if_pos inWord]
  split
  · rw [Nat.min_eq_left (by omega)]
  · rw [Nat.min_eq_right (by omega)]

theorem shiftAmount_shamtOperand (shamt : BitVec 5) : shiftAmount (shamtOperand shamt) = shamt.toNat := by
  have := shamt.isLt
  simp [shiftAmount_eq, shamtOperand, zext]
  omega

theorem toNat_upperOperand (imm : BitVec 20) : (upperOperand imm).toNat = imm.toNat * 4096 := by
  rw [upperOperand, BitVec.toNat_append, Nat.shiftLeft_eq]
  exact Nat.or_zero _

/-! ### An instruction that writes an ALU result (R140, R142) -/

theorem writesRd_commit (s : State) (rd : Reg) (v : Word) : WritesRd s (s.commit (Effect.writeRd rd v)) rd v := by
  refine ⟨fun r => State.commit_x .., rfl, fun a => ?data, fun a => ?imem, State.commit_run .., State.commit_cfg ..⟩
  case data => rw [State.commit_dmem]; rfl
  case imem => rw [State.commit_imem]

/-- Such an instruction completes in every state, and what holds of the result holds of the value written. -/
theorem alu_completes {i : Instr} {s : State} {rd : Reg} {op : AluOp} {a b : Word} {P : Word → Prop}
    (ends : exec i s = finish i s (aluBehaviour op rd a b)) (value : P (alu op a b)) :
    ∃ t v, exec i s = .next t ∧ WritesRd s t rd v ∧ P v :=
  ⟨_, _, ends, writesRd_commit s rd _, value⟩

/-! ### Register-register (40_integer_computational.md section 2) -/

/-- Settles O33: the sum and the difference by `toNat_alu_add` and `toNat_alu_sub`. -/
theorem addSubCompute : Obligations.AddSubCompute := by
  refine ⟨⟨readsAsR .add rfl rfl fun _ => rfl, readsAsR .sub rfl rfl fun _ => rfl⟩,
    fun s rd rs1 rs2 => ⟨?add, ?sub⟩⟩
  case add => exact alu_completes (op := .add) rfl (toNat_alu_add ..)
  case sub => exact alu_completes (op := .sub) rfl (toNat_alu_sub ..)

/-- Settles O34: the shifts bit by bit, by the amount that `shiftAmount_eq` gives. -/
theorem registerShiftsCompute : Obligations.RegisterShiftsCompute := by
  refine ⟨⟨readsAsR .sll rfl rfl fun _ => rfl, readsAsR .srl rfl rfl fun _ => rfl, readsAsR .sra rfl rfl fun _ => rfl⟩,
    fun s rd rs1 rs2 n mod => ?_⟩
  have amount : shiftAmount (s.x rs2) = n := (shiftAmount_eq _).trans mod.symm
  refine ⟨?sll, ?srl, ?sra⟩
  case sll => exact alu_completes (op := .sll) rfl fun k inWord => getLsbD_alu_sll _ amount inWord
  case srl => exact alu_completes (op := .srl) rfl fun k _ => getLsbD_alu_srl _ amount
  case sra => exact alu_completes (op := .sra) rfl fun k inWord => getLsbD_alu_sra _ amount inWord

/-- Settles O35: the signed and the unsigned comparison by `toNat_alu_slt` and `toNat_alu_sltu`. -/
theorem registerComparesCompute : Obligations.RegisterComparesCompute := by
  refine ⟨⟨readsAsR .slt rfl rfl fun _ => rfl, readsAsR .sltu rfl rfl fun _ => rfl⟩,
    fun s rd rs1 rs2 => ⟨?slt, ?sltu⟩⟩
  case slt => exact alu_completes (op := .slt) rfl (toNat_alu_slt ..)
  case sltu => exact alu_completes (op := .sltu) rfl (toNat_alu_sltu ..)

/-- Settles O36: each bit by the ALU's bitwise laws. -/
theorem registerLogicComputes : Obligations.RegisterLogicComputes := by
  refine ⟨⟨readsAsR .xor rfl rfl fun _ => rfl, readsAsR .or rfl rfl fun _ => rfl, readsAsR .and rfl rfl fun _ => rfl⟩,
    fun s rd rs1 rs2 => ⟨?xor, ?or, ?and⟩⟩
  case xor => exact alu_completes (op := .xor) rfl fun k _ => getLsbD_alu_xor ..
  case or => exact alu_completes (op := .or) rfl fun k _ => getLsbD_alu_or ..
  case and => exact alu_completes (op := .and) rfl fun k _ => getLsbD_alu_and ..

/-! ### Register-immediate (section 3) -/

/-- Settles O37: the exact sum with the immediate's signed value, by `toNat_add_sext`. -/
theorem addImmediateComputes : Obligations.AddImmediateComputes :=
  ⟨readsAsI .addi rfl rfl fun _ => rfl, fun _ _ _ imm =>
    alu_completes (op := .add) rfl (toNat_add_sext _ imm (by decide))⟩

/-- Settles O38: the comparisons of the ALU with the signed (`toInt_immOperand`) and the unsigned (`toNat_immOperand`) value of
the immediate operand. -/
theorem immediateComparesCompute : Obligations.ImmediateComparesCompute := by
  refine ⟨⟨readsAsI .slti rfl rfl fun _ => rfl, readsAsI .sltiu rfl rfl fun _ => rfl⟩,
    fun s rd rs1 imm => ⟨?slti, ?sltiu⟩⟩
  case slti =>
    refine alu_completes (op := .slt) (b := immOperand imm) rfl ?_
    rw [toNat_alu_slt, toInt_immOperand]
  case sltiu =>
    refine alu_completes (op := .sltu) (b := immOperand imm) rfl ?_
    rw [toNat_alu_sltu, ← toNat_immOperand]
    simp only [Nat.cast_lt]

/-- Settles O39: the ALU's bitwise laws, and the bits of the immediate operand (`getLsbD_immOperand`). -/
theorem immediateLogicComputes : Obligations.ImmediateLogicComputes := by
  refine ⟨⟨readsAsI .xori rfl rfl fun _ => rfl, readsAsI .ori rfl rfl fun _ => rfl, readsAsI .andi rfl rfl fun _ => rfl⟩,
    fun s rd rs1 imm => ⟨?xori, ?ori, ?andi⟩⟩
  case xori =>
    refine alu_completes (op := .xor) (b := immOperand imm) rfl fun k inWord => ?_
    rw [getLsbD_alu_xor, getLsbD_immOperand imm inWord]
  case ori =>
    refine alu_completes (op := .or) (b := immOperand imm) rfl fun k inWord => ?_
    rw [getLsbD_alu_or, getLsbD_immOperand imm inWord]
  case andi =>
    refine alu_completes (op := .and) (b := immOperand imm) rfl fun k inWord => ?_
    rw [getLsbD_alu_and, getLsbD_immOperand imm inWord]

theorem lookupShiftLeftImm_eq_none {g : BitVec 7} (notSlli : g ≠ 0b0000000#7) : lookupShiftLeftImm g = none := by
  unfold lookupShiftLeftImm
  split
  · exact absurd rfl notSlli
  · rfl

theorem lookupShiftRightImm_eq_none {g : BitVec 7} (notSrli : g ≠ 0b0000000#7) (notSrai : g ≠ 0b0100000#7) :
    lookupShiftRightImm g = none := by
  unfold lookupShiftRightImm
  split
  · exact absurd rfl notSrli
  · exact absurd rfl notSrai
  · rfl

/-- Under OP_IMM a word whose funct fields look up no row is UnknownFunct. -/
theorem decode_opImm_unknownFunct (extra : List (BitVec 7)) {w : Word} {f : BitVec 3}
    (opcode : w.extractLsb' 0 7 = 0b0010011#7) (funct3 : w.extractLsb' 12 3 = f)
    (noRow : lookupOpImm f (w.extractLsb' 25 7) = none) : decode extra w = .illegal .unknownFunct := by
  have named : opcodeOf (opcodeField w) = some .opImm := opcodeOf_eq_some.mpr opcode
  rw [decode_eq_illegal, dispatch, named]
  subst funct3
  exact orUnknownFunct_eq_illegal.mpr ⟨noRow, rfl⟩

/-- Settles O40: the shifts bit by bit, by the amount that `shiftAmount_shamtOperand` gives; under their funct3 any other
imm[11:5] looks up no row. -/
theorem immediateShiftsCompute : Obligations.ImmediateShiftsCompute := by
  refine ⟨⟨readsAsShift .slli rfl rfl rfl fun _ => rfl, readsAsShift .srli rfl rfl rfl fun _ => rfl,
    readsAsShift .srai rfl rfl rfl fun _ => rfl, fun extra w opcode => ⟨fun funct3 notSlli => ?otherLeft,
      fun funct3 notSrli notSrai => ?otherRight⟩⟩, fun s rd rs1 shamt => ?_⟩
  case otherLeft => exact decode_opImm_unknownFunct extra opcode funct3 (lookupShiftLeftImm_eq_none notSlli)
  case otherRight => exact decode_opImm_unknownFunct extra opcode funct3 (lookupShiftRightImm_eq_none notSrli notSrai)
  have amount : shiftAmount (shamtOperand shamt) = shamt.toNat := shiftAmount_shamtOperand shamt
  refine ⟨?slli, ?srli, ?srai⟩
  case slli => exact alu_completes (op := .sll) rfl fun k inWord => getLsbD_alu_sll _ amount inWord
  case srli => exact alu_completes (op := .srl) rfl fun k _ => getLsbD_alu_srl _ amount
  case srai => exact alu_completes (op := .sra) rfl fun k inWord => getLsbD_alu_sra _ amount inWord

/-! ### Upper immediate (section 4) -/

/-- Settles O41: the upper operand is imm20 times 4096 (`toNat_upperOperand`), added to 0 or to the pc. -/
theorem upperImmediatesCompute : Obligations.UpperImmediatesCompute := by
  refine ⟨⟨readsAsU .lui rfl rfl fun _ => rfl, readsAsU .auipc rfl rfl fun _ => rfl⟩,
    fun s rd imm => ⟨?lui, ?auipc⟩⟩
  case lui =>
    refine alu_completes (op := .add) (a := 0) (b := upperOperand imm) rfl ?_
    exact (congrArg BitVec.toNat (BitVec.zero_add _)).trans (toNat_upperOperand imm)
  case auipc =>
    refine alu_completes (op := .add) (a := s.pc) (b := upperOperand imm) rfl ?_
    rw [toNat_alu_add, toNat_upperOperand]

end Sys2Proof.Machine
end

section
namespace Sys2Proof.Machine

/-! ### Targets (41_control_transfer.md R192, R193, R196) -/

theorem toNat_jalTarget (s : State) (offset : BitVec 21) : (jalTarget s offset).toNat = wrapSum s.pc offset.toInt :=
  toNat_add_sext s.pc offset (by decide)

theorem toNat_branchTarget (s : State) (offset : BitVec 13) :
    (branchTarget s offset).toNat = wrapSum s.pc offset.toInt :=
  toNat_add_sext s.pc offset (by decide)

/-- The mask of JALR drops bit 0 of the sum. -/
theorem toNat_and_dropBit0 (a : Word) : (a &&& 0xFFFFFFFE#32).toNat = a.toNat - a.toNat % 2 := by
  have halves : a = a.extractLsb' 1 31 ++ a.extractLsb' 0 1 := by
    refine BitVec.eq_of_getLsbD_eq fun k hk => ?_
    rw [BitVec.getLsbD_append, BitVec.getLsbD_extractLsb', BitVec.getLsbD_extractLsb']
    grind
  have masked : a &&& 0xFFFFFFFE#32 = a.extractLsb' 1 31 ++ 0#1 := by
    refine (congrArg (· &&& 0xFFFFFFFE#32) halves).trans ((append_and_append _ (BitVec.allOnes 31) _ 0#1).trans ?_)
    rw [BitVec.and_allOnes, BitVec.and_zero]
  rw [masked, BitVec.toNat_append, BitVec.extractLsb'_toNat, Nat.shiftRight_eq_div_pow, Nat.shiftLeft_eq]
  have := a.isLt
  simp
  omega

theorem toNat_jalrTarget (s : State) (rs1 : Reg) (imm : BitVec 12) : (jalrTarget s rs1 imm).toNat =
    wrapSum (s.x rs1) imm.toInt - wrapSum (s.x rs1) imm.toInt % 2 := by
  rw [jalrTarget, toNat_and_dropBit0, toNat_add_sext _ imm (by decide)]

/-- A word is the number it holds. -/
theorem eq_ofNat_of_toNat {a : Word} {n : Nat} (h : a.toNat = n) : BitVec.ofNat 32 n = a := by
  rw [← h, BitVec.ofNat_toNat, BitVec.setWidth_eq]

/-! ### Transfers (R190, R191) -/

section
variable {i : Instr} {s : State} {target : Word} {rw : Option (Reg × Word)}
  (ends : exec i s = finish i s (transfer target rw))
include ends

theorem exec_transfer_aligned (aligned : target.toNat % 4 = 0) :
    exec i s = .next (s.commit { rdWrite := rw, memWrite := none, redirect := some target }) := by
  rw [ends, transfer_aligned aligned, finish_done]

theorem exec_transfer_misaligned {n : Nat} (value : target.toNat = n) (misaligned : n % 4 ≠ 0) :
    exec i s = .next (haltedBy s .instructionAddressMisaligned none (some (encode i)) (some (BitVec.ofNat 32 n))) := by
  rw [ends, transfer_misaligned (value ▸ misaligned), finish_raise, eq_ofNat_of_toNat value,
    takeFault_eq_haltedBy]
  rfl
end

/-- What a commit with no store leaves alone. -/
theorem State.commit_noStore (s : State) (rw : Option (Reg × Word)) (redirect : Option Word) :
    SameData s (s.commit { rdWrite := rw, memWrite := none, redirect := redirect }) ∧
      SameOutside s (s.commit { rdWrite := rw, memWrite := none, redirect := redirect }) := by
  refine ⟨fun a => ?data, fun a => ?imem, State.commit_run .., State.commit_cfg ..⟩
  case data => rw [State.commit_dmem]
  case imem => rw [State.commit_imem]

/-- Settles O42: the target of each jump as a number (`toNat_jalTarget`, `toNat_jalrTarget`), and the transfer there. -/
theorem jumpsGoToTheirTarget : Obligations.JumpsGoToTheirTarget := by
  refine ⟨⟨readsAsJ .jal rfl rfl fun _ => rfl, readsAsI .jalr rfl rfl fun _ => rfl⟩, fun s rd offset aligned => ?jal,
    fun s rd rs1 imm aligned => ?jalr⟩
  case jal =>
    rw [← toNat_jalTarget] at aligned ⊢
    exact ⟨_, exec_transfer_aligned rfl aligned, rfl, fun r => State.commit_x .., State.commit_noStore ..⟩
  case jalr =>
    have target := toNat_jalrTarget s rs1 imm
    exact ⟨_, exec_transfer_aligned rfl (by omega), target, fun r => State.commit_x .., State.commit_noStore ..⟩

/-- Settles O43: a transfer to a misaligned target takes the fault at the jump. -/
theorem misalignedJumpsHalt : Obligations.MisalignedJumpsHalt := by
  refine ⟨fun s rd offset misaligned => ?jal, fun s rd rs1 imm misaligned => ?jalr⟩
  case jal => exact exec_transfer_misaligned rfl (toNat_jalTarget s offset) misaligned
  case jalr => exact exec_transfer_misaligned rfl (toNat_jalrTarget s rs1 imm) (by omega)

/-! ### Branches (R195, R196) -/

section
variable {mk : Reg → Reg → BitVec 13 → Instr} {cond : Word → Word → Prop} {c : Cond}
  (compares : ∀ {a b : Word}, cmp c a b = true ↔ cond a b)
  (ends : ∀ (s : State) (rs1 rs2 : Reg) (offset : BitVec 13), exec (mk rs1 rs2 offset) s =
    finish (mk rs1 rs2 offset) s (branch (cmp c (s.x rs1) (s.x rs2)) (branchTarget s offset)))
include compares ends

theorem exec_branch_taken {s : State} {rs1 rs2 : Reg} (offset : BitVec 13) (taken : cond (s.x rs1) (s.x rs2)) :
    exec (mk rs1 rs2 offset) s = finish (mk rs1 rs2 offset) s (transfer (branchTarget s offset) none) := by
  rw [ends, compares.mpr taken]
  rfl

theorem exec_branch_notTaken {s : State} {rs1 rs2 : Reg} (offset : BitVec 13) (notTaken : ¬ cond (s.x rs1) (s.x rs2)) :
    exec (mk rs1 rs2 offset) s = .next (s.commit { rdWrite := none, memWrite := none, redirect := none }) := by
  rw [ends, Bool.eq_false_iff.mpr (mt compares.mp notTaken)]
  rfl

theorem branchesOn : BranchesOn mk cond := by
  refine fun s rs1 rs2 offset => ⟨fun notTaken => ?notTaken, fun taken aligned => ?taken⟩
  case notTaken =>
    exact ⟨_, exec_branch_notTaken compares ends offset notTaken, toNat_add_four s.pc, fun r => State.commit_x ..,
      State.commit_noStore ..⟩
  case taken =>
    rw [← toNat_branchTarget] at aligned ⊢
    exact ⟨_, exec_transfer_aligned (exec_branch_taken compares ends offset taken) aligned, rfl,
      fun r => State.commit_x .., State.commit_noStore ..⟩

theorem branchFaultsOn : BranchFaultsOn mk cond := fun s _ _ offset taken misaligned =>
  exec_transfer_misaligned (exec_branch_taken compares ends offset taken) (toNat_branchTarget s offset) misaligned
end

/-- Settles O45: each branch by its comparison (`branchesOn`). -/
theorem branchesGoByTheirCondition : Obligations.BranchesGoByTheirCondition :=
  ⟨⟨readsAsB .beq rfl rfl rfl fun _ => rfl, readsAsB .bne rfl rfl rfl fun _ => rfl, readsAsB .blt rfl rfl rfl fun _ => rfl,
    readsAsB .bge rfl rfl rfl fun _ => rfl, readsAsB .bltu rfl rfl rfl fun _ => rfl, readsAsB .bgeu rfl rfl rfl fun _ => rfl⟩,
    branchesOn cmp_eq fun _ _ _ _ => rfl, branchesOn cmp_ne fun _ _ _ _ => rfl, branchesOn cmp_lt fun _ _ _ _ => rfl,
    branchesOn cmp_ge fun _ _ _ _ => rfl, branchesOn cmp_ltu fun _ _ _ _ => rfl, branchesOn cmp_geu fun _ _ _ _ => rfl⟩

/-- Settles O46: each branch by its comparison (`branchFaultsOn`). -/
theorem misalignedTakenBranchesHalt : Obligations.MisalignedTakenBranchesHalt :=
  ⟨branchFaultsOn cmp_eq fun _ _ _ _ => rfl, branchFaultsOn cmp_ne fun _ _ _ _ => rfl,
    branchFaultsOn cmp_lt fun _ _ _ _ => rfl, branchFaultsOn cmp_ge fun _ _ _ _ => rfl,
    branchFaultsOn cmp_ltu fun _ _ _ _ => rfl, branchFaultsOn cmp_geu fun _ _ _ _ => rfl⟩

end Sys2Proof.Machine
end

section
namespace Sys2Proof.Machine

/-! ### Loads and stores whose checks pass, and those whose checks fail (20_memory.md R67 to R70) -/

section
variable {form : LoadForm} {width : Width} {rd : Reg} {v ea : Word} {s : State} {c : Cause}

theorem loadBehaviour_raises (fails : checkAccess .load form.width ea s = some c) : loadBehaviour form rd ea s = .raise c := by
  rw [loadBehaviour, fails]

theorem loadBehaviour_done (passes : checkAccess .load form.width ea s = none) :
    loadBehaviour form rd ea s = .done (Effect.writeRd rd (form.widen (memReadValue s.dmem ea form.width))) := by
  rw [loadBehaviour, passes]

theorem storeBehaviour_raises (fails : checkAccess .store width ea s = some c) : storeBehaviour width v ea s = .raise c := by
  rw [storeBehaviour, fails]

theorem storeBehaviour_done (passes : checkAccess .store width ea s = none) : storeBehaviour width v ea s =
    .done { rdWrite := none, memWrite := some { ea := ea, width := width, value := v }, redirect := none } := by
  rw [storeBehaviour, passes]
end

/-! ### The effective address and the base register (42_loads_stores.md R220) -/

theorem toNat_effectiveAddress (s : State) (rs1 : Reg) (imm : BitVec 12) :
    (effectiveAddress s rs1 imm).toNat = wrapSum (s.x rs1) imm.toInt :=
  toNat_add_sext (s.x rs1) imm (by decide)

theorem rdOf_of_mem_stores {i : Instr} {r rs1 : Reg} {imm : BitVec 12}
    (store : i ∈ [Instr.sb r rs1 imm, .sh r rs1 imm, .sw r rs1 imm]) : rdOf i = none := by
  simp only [List.mem_cons, List.not_mem_nil, or_false] at store
  obtain rfl | rfl | rfl := store <;> rfl

theorem rdOf_of_mem_loads {i : Instr} {r rs1 : Reg} {imm : BitVec 12}
    (load : i ∈ [Instr.lb r rs1 imm, .lh r rs1 imm, .lw r rs1 imm, .lbu r rs1 imm, .lhu r rs1 imm]) : rdOf i = some r := by
  simp only [List.mem_cons, List.not_mem_nil, or_false] at load
  obtain rfl | rfl | rfl | rfl | rfl := load <;> rfl

/-- Settles O47: the base register is not the destination of a store, nor of a load that does not name it as rd. -/
theorem addressIsBasePlusSignedOffset : Obligations.AddressIsBasePlusSignedOffset := by
  refine ⟨⟨readsAsI .lb rfl rfl fun _ => rfl, readsAsI .lh rfl rfl fun _ => rfl, readsAsI .lw rfl rfl fun _ => rfl,
    readsAsI .lbu rfl rfl fun _ => rfl, readsAsI .lhu rfl rfl fun _ => rfl, readsAsS .sb rfl rfl rfl fun _ => rfl,
    readsAsS .sh rfl rfl rfl fun _ => rfl, readsAsS .sw rfl rfl rfl fun _ => rfl⟩, toNat_effectiveAddress,
    fun i s t r rs1 imm ends access => onlyTheDestinationRegisterChanges i s t rs1 ends (.inl ?other)⟩
  obtain store | ⟨load, ne⟩ := access
  · rw [rdOf_of_mem_stores store]
    exact nofun
  · rw [rdOf_of_mem_loads load]
    exact fun same => ne (Option.some.inj same).symm

/-! ### Accesses that fault (R67, R68) -/

theorem accessFaults {mk : Reg → Reg → BitVec 12 → Instr} {kind : AccessKind} {width : Width}
    {misaligned outOfRange : FaultCode}
    (raises : ∀ {s : State} {r rs1 : Reg} {imm : BitVec 12} {c : Cause},
      checkAccess kind width (effectiveAddress s rs1 imm) s = some c →
        exec (mk r rs1 imm) s = .next (takeFault c (some (encode (mk r rs1 imm))) s))
    (misalignedCode : ∀ ea, (Cause.misalignedAccess kind ea).code = misaligned)
    (outOfRangeCode : ∀ ea, (Cause.addressOutOfRange kind ea).code = outOfRange) :
    AccessFaults mk width.bytes misaligned outOfRange := by
  refine fun s r rs1 imm => ⟨fun notAligned => ?misaligned, fun aligned past => ?outOfRange⟩
  case misaligned =>
    rw [raises (checkAccess_misaligned notAligned), takeFault_eq_haltedBy,
      ← misalignedCode (effectiveAddress s rs1 imm)]
    rfl
  case outOfRange =>
    rw [raises (checkAccess_outOfRange aligned past), takeFault_eq_haltedBy,
      ← outOfRangeCode (effectiveAddress s rs1 imm)]
    rfl

theorem loadFaults {mk : Reg → Reg → BitVec 12 → Instr} (form : LoadForm)
    (ends : ∀ (s : State) (rd rs1 : Reg) (imm : BitVec 12), exec (mk rd rs1 imm) s =
      finish (mk rd rs1 imm) s (loadBehaviour form rd (effectiveAddress s rs1 imm) s)) :
    AccessFaults mk form.width.bytes .misalignedLoad .loadOutOfRange := by
  refine accessFaults (kind := .load) (fun fails => ?_) (fun _ => rfl) (fun _ => rfl)
  rw [ends, loadBehaviour_raises fails, finish_raise]

theorem storeFaults {mk : Reg → Reg → BitVec 12 → Instr} (width : Width)
    (ends : ∀ (s : State) (rs2 rs1 : Reg) (imm : BitVec 12), exec (mk rs2 rs1 imm) s =
      finish (mk rs2 rs1 imm) s (storeBehaviour width (s.x rs2) (effectiveAddress s rs1 imm) s)) :
    AccessFaults mk width.bytes .misalignedStore .storeOutOfRange := by
  refine accessFaults (kind := .store) (fun fails => ?_) (fun _ => rfl) (fun _ => rfl)
  rw [ends, storeBehaviour_raises fails, finish_raise]

/-- Settles O49: each load by its form (`loadFaults`). -/
theorem loadFaultsHalt : Obligations.LoadFaultsHalt :=
  ⟨loadFaults .lb fun _ _ _ _ => rfl, loadFaults .lh fun _ _ _ _ => rfl, loadFaults .lw fun _ _ _ _ => rfl,
    loadFaults .lbu fun _ _ _ _ => rfl, loadFaults .lhu fun _ _ _ _ => rfl⟩

/-- Settles O51: each store by its width (`storeFaults`). -/
theorem storeFaultsHalt : Obligations.StoreFaultsHalt :=
  ⟨storeFaults .byte fun _ _ _ _ => rfl, storeFaults .half fun _ _ _ _ => rfl, storeFaults .word fun _ _ _ _ => rfl⟩

/-! ### Loads that complete (42_loads_stores.md R221 to R226) -/

/-- Whether a load extends with the top bit of its value; LW fills the word, so for it either answer holds. -/
def LoadForm.signed : LoadForm → Bool
  | .lb | .lh | .lw => true
  | .lbu | .lhu => false

theorem getLsbD_widen (form : LoadForm) (v : Word) {k : Nat} (inWord : k < 32) : (form.widen v).getLsbD k =
    if k < 8 * form.width.bytes then v.getLsbD k else form.signed && v.getLsbD (8 * form.width.bytes - 1) := by
  cases form
  case lb => exact (getLsbD_sext 8 v (by decide) (by decide) k).trans (if_pos inWord)
  case lh => exact (getLsbD_sext 16 v (by decide) (by decide) k).trans (if_pos inWord)
  case lw => exact (if_pos inWord).symm
  case lbu =>
    refine (getLsbD_zext 8 v (by decide) k).trans ?_
    by_cases low : k < 8 <;> simp [low, LoadForm.width, Width.bytes, LoadForm.signed]
  case lhu =>
    refine (getLsbD_zext 16 v (by decide) k).trans ?_
    by_cases low : k < 16 <;> simp [low, LoadForm.width, Width.bytes, LoadForm.signed]

theorem Width.bytes_pos (width : Width) : 0 < width.bytes := by
  cases width <;> decide

theorem loadedBits_widen (form : LoadForm) (m : Memory) {ea : Word} (aligned : ea.toNat % form.width.bytes = 0) :
    LoadedBits m ea.toNat form.width.bytes form.signed (form.widen (memReadValue m ea form.width)) := by
  intro k inWord
  have pos := form.width.bytes_pos
  have topByte : ea.toNat + (8 * form.width.bytes - 1) / 8 = ea.toNat + form.width.bytes - 1 := by omega
  have topBit : (8 * form.width.bytes - 1) % 8 = 7 := by omega
  have inValue : 8 * form.width.bytes - 1 < 8 * form.width.bytes := by omega
  rw [getLsbD_widen form _ inWord, getLsbD_memReadValue _ _ _ aligned, getLsbD_memReadValue _ _ _ aligned, topByte, topBit]
  split
  · next low => rw [decide_eq_true low, Bool.true_and]
  · rw [decide_eq_true inValue, Bool.true_and]

theorem loadsBytes {mk : Reg → Reg → BitVec 12 → Instr} (form : LoadForm)
    (ends : ∀ (s : State) (rd rs1 : Reg) (imm : BitVec 12), exec (mk rd rs1 imm) s =
      finish (mk rd rs1 imm) s (loadBehaviour form rd (effectiveAddress s rs1 imm) s)) :
    LoadsBytes mk form.width.bytes form.signed := by
  intro s rd rs1 imm aligned inRange
  have completes := ends s rd rs1 imm
  rw [loadBehaviour_done (checkAccess_eq_none.mpr ⟨aligned, inRange⟩)] at completes
  exact ⟨_, _, completes, writesRd_commit s rd _, loadedBits_widen form s.dmem aligned⟩

/-- Settles O48: each load by its form (`loadsBytes`). -/
theorem loadsReadTheirBytes : Obligations.LoadsReadTheirBytes :=
  ⟨loadsBytes .lb fun _ _ _ _ => rfl, loadsBytes .lh fun _ _ _ _ => rfl, loadsBytes .lw fun _ _ _ _ => rfl,
    loadsBytes .lbu fun _ _ _ _ => rfl, loadsBytes .lhu fun _ _ _ _ => rfl⟩

/-! ### Stores that complete (R229 to R232) -/

theorem storesBytes {mk : Reg → Reg → BitVec 12 → Instr} (width : Width)
    (ends : ∀ (s : State) (rs2 rs1 : Reg) (imm : BitVec 12), exec (mk rs2 rs1 imm) s =
      finish (mk rs2 rs1 imm) s (storeBehaviour width (s.x rs2) (effectiveAddress s rs1 imm) s)) :
    StoresBytes mk width.bytes := by
  intro s rs2 rs1 imm aligned inRange
  have completes := ends s rs2 rs1 imm
  rw [storeBehaviour_done (checkAccess_eq_none.mpr ⟨aligned, inRange⟩)] at completes
  refine ⟨_, completes, fun r => State.commit_x .., toNat_add_four s.pc,
    ⟨fun a => by rw [State.commit_imem], State.commit_run .., State.commit_cfg ..⟩, ?_⟩
  rintro _ rfl
  rw [State.commit_dmem]
  refine ⟨fun k inSpan => ?stored, fun a outside => ?kept⟩
  case stored =>
    refine (readByte_memWriteValue _ _ _ _ aligned _).trans ((if_pos (by omega)).trans ?_)
    rw [Nat.add_sub_cancel_left]
  case kept => exact (readByte_memWriteValue _ _ _ _ aligned a).trans (if_neg (by omega))

/-- Settles O50: each store by its width (`storesBytes`). -/
theorem storesWriteTheirBytes : Obligations.StoresWriteTheirBytes :=
  ⟨storesBytes .byte fun _ _ _ _ => rfl, storesBytes .half fun _ _ _ _ => rfl, storesBytes .word fun _ _ _ _ => rfl⟩

end Sys2Proof.Machine
end

section
namespace Sys2Proof.Machine

/-! ### A load after a store (70_reset_and_hazards.md section 3; 20_memory.md section 3) -/

/-- Bit `k` of a word is bit `k % 8` of its byte `k / 8`. -/
theorem getLsbD_byte (v : Word) (k : Nat) : (v.extractLsb' (8 * (k / 8)) 8).getLsbD (k % 8) = v.getLsbD k := by
  have inByte : k % 8 < 8 := Nat.mod_lt k (by decide)
  rw [BitVec.getLsbD_extractLsb', decide_eq_true inByte, Bool.true_and, Nat.div_add_mod]

/-- A word whose low bits are those of another, and whose other bits are 0. -/
theorem toNat_eq_mod_of_bits {v x : Word} {m : Nat} (inWord : m ≤ 32)
    (bits : ∀ k < 32, v.getLsbD k = if k < m then x.getLsbD k else false) : v.toNat = x.toNat % 2 ^ m := by
  have low : v = zext m x := by
    refine BitVec.eq_of_getLsbD_eq fun k hk => ?_
    rw [bits k hk, getLsbD_zext m x inWord]
    by_cases h : k < m <;> simp [h]
  rw [low, zext, BitVec.toNat_setWidth, BitVec.toNat_setWidth]
  exact Nat.mod_eq_of_lt ((Nat.mod_lt _ (by positivity)).trans_le (Nat.pow_le_pow_right (by decide) inWord))

theorem OnlyRd.x_rd {s t : State} {rd : Reg} {v : Word} (only : OnlyRd s t rd v) (notZero : rd ≠ 0) : t.x rd = v :=
  (only rd).trans ((if_neg notZero).trans (if_pos rfl))

/-- The effective address is read off the base register alone. -/
theorem effectiveAddress_congr {s t : State} (same : SameRegs s t) (rs1 : Reg) (imm : BitVec 12) :
    effectiveAddress t rs1 imm = effectiveAddress s rs1 imm := by
  rw [effectiveAddress, same rs1, effectiveAddress]

/-- A store and a load of as many bytes at the same address: the load answers the bytes stored, extended. -/
theorem load_after_store {mkStore mkLoad : Reg → Reg → BitVec 12 → Instr} {n : Nat} {signed : Bool}
    (stores : StoresBytes mkStore n) (loads : LoadsBytes mkLoad n signed) (pos : 0 < n) {s : State} {rd : Reg} (rs2 : Reg)
    {rs1 : Reg} {imm : BitVec 12} (notZero : rd ≠ 0) (aligned : (effectiveAddress s rs1 imm).toNat % n = 0)
    (inRange : (effectiveAddress s rs1 imm).toNat / 4 < s.cfg.dmemWords) :
    ∃ t u, exec (mkStore rs2 rs1 imm) s = .next t ∧ exec (mkLoad rd rs1 imm) t = .next u ∧
      ∀ k < 32, (u.x rd).getLsbD k =
        if k < 8 * n then (s.x rs2).getLsbD k else signed && (s.x rs2).getLsbD (8 * n - 1) := by
  obtain ⟨t, stored, sameRegs, -, ⟨-, -, cfg⟩, bytes⟩ := stores s rs2 rs1 imm aligned inRange
  have ea := effectiveAddress_congr sameRegs rs1 imm
  obtain ⟨u, v, loaded, ⟨only, -⟩, bits⟩ := loads t rd rs1 imm (by rwa [ea]) (by rwa [ea, cfg])
  refine ⟨t, u, stored, loaded, fun k inWord => ?_⟩
  obtain ⟨written, -⟩ := bytes _ rfl
  have bit : ∀ j < 8 * n, (t.dmem.readByte ((effectiveAddress s rs1 imm).toNat + j / 8)).getLsbD (j % 8) =
      (s.x rs2).getLsbD j := fun j inSpan => by rw [written (j / 8) (by omega), getLsbD_byte]
  rw [only.x_rd notZero, bits k inWord, ea]
  split
  · next low => exact bit k low
  · have top := bit (8 * n - 1) (by omega)
    have topByte : (effectiveAddress s rs1 imm).toNat + (8 * n - 1) / 8 = (effectiveAddress s rs1 imm).toNat + n - 1 := by
      omega
    have topBit : (8 * n - 1) % 8 = 7 := by omega
    rw [topByte, topBit] at top
    rw [top]

/-- Settles O52: each pair by `load_after_store`. -/
theorem loadAfterStoreReturnsTheValue : Obligations.LoadAfterStoreReturnsTheValue := by
  obtain ⟨storesByte, storesHalf, storesWord⟩ := storesWriteTheirBytes
  obtain ⟨-, -, loadsWord, loadsByte, loadsHalf⟩ := loadsReadTheirBytes
  refine fun s rd rs2 rs1 imm notZero inRange => ⟨fun aligned => ?word, fun aligned => ?half, ?byte⟩
  case word =>
    obtain ⟨t, u, stored, loaded, bits⟩ := load_after_store storesWord loadsWord (by decide) rs2 notZero aligned inRange
    exact ⟨t, u, stored, loaded, BitVec.eq_of_getLsbD_eq fun k hk => (bits k hk).trans (if_pos hk)⟩
  case half =>
    obtain ⟨t, u, stored, loaded, bits⟩ := load_after_store storesHalf loadsHalf (by decide) rs2 notZero aligned inRange
    exact ⟨t, u, stored, loaded, toNat_eq_mod_of_bits (by decide) bits⟩
  case byte =>
    obtain ⟨t, u, stored, loaded, bits⟩ :=
      load_after_store storesByte loadsByte (by decide) rs2 notZero (Nat.mod_one _) inRange
    exact ⟨t, u, stored, loaded, toNat_eq_mod_of_bits (by decide) bits⟩

/-- Settles O53: the stored word is its four bytes, of which the byte access names one. -/
theorem mixedWidthAccessesSeeTheSameBytes : Obligations.MixedWidthAccessesSeeTheSameBytes := by
  obtain ⟨storesByte, -, storesWord⟩ := storesWriteTheirBytes
  obtain ⟨-, -, -, loadsByte, -⟩ := loadsReadTheirBytes
  intro s t rd rs2 rs1 rb rv imm immb k notZero lane aligned inRange ends ea
  obtain ⟨t', stored, -, -, ⟨-, -, cfg⟩, bytes⟩ := storesWord s rs2 rs1 imm aligned inRange
  obtain rfl := Host.Outcome.next.inj (stored.symm.trans ends)
  obtain ⟨written, -⟩ := bytes _ rfl
  have inRange' : (effectiveAddress t' rb immb).toNat / 4 < t'.cfg.dmemWords := by
    rw [ea, cfg]
    omega
  refine ⟨?load, ?store⟩
  case load =>
    obtain ⟨u, v, loaded, ⟨only, -⟩, bits⟩ := loadsByte t' rd rb immb (Nat.mod_one _) inRange'
    refine ⟨u, loaded, ?_⟩
    rw [only.x_rd notZero, ← Nat.shiftRight_eq_div_pow, ← BitVec.toNat_ushiftRight]
    refine toNat_eq_mod_of_bits (by decide) fun j inWord => (bits j inWord).trans ?_
    split
    · next inByte =>
      have byte : (effectiveAddress t' rb immb).toNat + j / 8 = (effectiveAddress s rs1 imm).toNat + k := by omega
      rw [byte, written k lane, BitVec.getLsbD_extractLsb', BitVec.getLsbD_ushiftRight, Nat.mod_eq_of_lt inByte,
        decide_eq_true inByte, Bool.true_and]
    · rfl
  case store =>
    obtain ⟨u, stored', -, -, -, bytes'⟩ := storesByte t' rv rb immb (Nat.mod_one _) inRange'
    refine ⟨u, stored', fun n inWord => ?_⟩
    obtain ⟨written', kept⟩ := bytes' _ rfl
    have byte : 4 * ((effectiveAddress s rs1 imm).toNat / 4) + n / 8 = (effectiveAddress s rs1 imm).toNat + n / 8 := by omega
    rw [Memory.getLsbD_word _ _ _ inWord, byte]
    split
    · next own =>
      have low := written' 0 (by decide)
      rw [ea, Nat.add_zero] at low
      rw [own, low]
      have inByte : n % 8 < 8 := Nat.mod_lt n (by decide)
      rw [BitVec.getLsbD_extractLsb', decide_eq_true inByte, Bool.true_and, Nat.mul_zero, Nat.zero_add]
    · next other => rw [kept _ (by omega), written (n / 8) (by omega), getLsbD_byte]

end Sys2Proof.Machine
end

section
namespace Sys2Proof

/-! ### The immediates, bit by bit and by range (30_encoding.md R101 to R104) -/

/-- An extended field: below its width its own bits, above it copies of its sign bit. -/
theorem getLsbD_sext_field {n : Nat} (v : BitVec n) (hn : 1 ≤ n) (hn' : n ≤ 32) {k : Nat} (inWord : k < 32) :
    (sext n v).getLsbD k = if k < n then v.getLsbD k else v.getLsbD (n - 1) :=
  (getLsbD_sext n v hn hn' k).trans (if_pos inWord)

theorem getLsbD_SType_imm (w : Word) {k : Nat} (inField : k < 12) : (decodeS w).imm.getLsbD k =
    if k < 5 then w.getLsbD (7 + k) else w.getLsbD (20 + k) := by
  simp only [SType.imm, decodeS, BitVec.getLsbD_append, BitVec.getLsbD_extractLsb']
  grind

theorem getLsbD_BType_offset (w : Word) {k : Nat} (inField : k < 13) : (decodeB w).offset.getLsbD k =
    if k = 0 then false else if k < 5 then w.getLsbD (7 + k) else if k < 11 then w.getLsbD (20 + k)
    else if k = 11 then w.getLsbD 7 else w.getLsbD 31 := by
  simp only [BType.offset, decodeB, BitVec.getLsbD_append, BitVec.getLsbD_extractLsb']
  grind

theorem getLsbD_JType_offset (w : Word) {k : Nat} (inField : k < 21) : (decodeJ w).offset.getLsbD k =
    if k = 0 then false else if k < 11 then w.getLsbD (20 + k) else if k = 11 then w.getLsbD 20
    else if k < 20 then w.getLsbD k else w.getLsbD 31 := by
  simp only [JType.offset, decodeJ, BitVec.getLsbD_append, BitVec.getLsbD_extractLsb']
  grind

section
variable (w : Word) {k : Nat} (inWord : k < 32)
include inWord

theorem getLsbD_immS : (immS w).getLsbD k =
    if k < 5 then w.getLsbD (7 + k) else if k < 11 then w.getLsbD (20 + k) else w.getLsbD 31 := by
  rw [immS, getLsbD_sext_field _ (by decide) (by decide) inWord, getLsbD_SType_imm w (k := 11) (by decide)]
  split
  · next low => rw [getLsbD_SType_imm w low]; grind
  · grind

theorem getLsbD_immB : (immB w).getLsbD k =
    if k = 0 then false else if k < 5 then w.getLsbD (7 + k) else if k < 11 then w.getLsbD (20 + k)
    else if k = 11 then w.getLsbD 7 else w.getLsbD 31 := by
  rw [immB, getLsbD_sext_field _ (by decide) (by decide) inWord, getLsbD_BType_offset w (k := 12) (by decide)]
  split
  · next low => exact getLsbD_BType_offset w low
  · grind

theorem getLsbD_immU : (immU w).getLsbD k = if k < 12 then false else w.getLsbD k := by
  simp only [immU, decodeU, BitVec.getLsbD_append, BitVec.getLsbD_extractLsb']
  grind

theorem getLsbD_immJ : (immJ w).getLsbD k =
    if k = 0 then false else if k < 11 then w.getLsbD (20 + k) else if k = 11 then w.getLsbD 20
    else if k < 20 then w.getLsbD k else w.getLsbD 31 := by
  rw [immJ, getLsbD_sext_field _ (by decide) (by decide) inWord, getLsbD_JType_offset w (k := 20) (by decide)]
  split
  · next low => exact getLsbD_JType_offset w low
  · grind
end

/-- The signed value of an even offset is even. -/
theorem toInt_even {n : Nat} {v : BitVec (n + 1)} (even : evenOffset v = true) : v.toInt % 2 = 0 := by
  have bit : v.getLsbD 0 = false := by simpa [evenOffset] using even
  have nat : v.toNat % 2 = 0 := by
    rw [BitVec.getLsbD, Nat.testBit_zero] at bit
    simpa using bit
  rw [BitVec.toInt_eq_toNat_cond, Nat.pow_succ]
  split <;> omega

/-- Settles O8: the bits by the immediates' own lemmas; the ranges are those of a 12-, 13- and 21-bit signed value
(`toInt_sext`), and an even offset stops one below its odd bound. -/
theorem immediatesAreReassembledByFieldName : Obligations.ImmediatesAreReassembledByFieldName := by
  intro w
  have valueS : (immS w).toInt = (decodeS w).imm.toInt := toInt_sext _ (by decide)
  have valueB : (immB w).toInt = (decodeB w).offset.toInt := toInt_sext _ (by decide)
  have valueJ : (immJ w).toInt = (decodeJ w).offset.toInt := toInt_sext _ (by decide)
  have evenB := toInt_even (evenOffset_decodeB w)
  have evenJ := toInt_even (evenOffset_decodeJ w)
  rw [valueS, valueB, valueJ]
  refine ⟨⟨fun k => getLsbD_immS w, BitVec.le_toInt _, ?maxS⟩, ⟨fun k => getLsbD_immB w, evenB, BitVec.le_toInt _, ?maxB⟩,
    fun k => getLsbD_immU w, ⟨fun k => getLsbD_immJ w, evenJ, BitVec.le_toInt _, ?maxJ⟩⟩
  case maxS => exact Int.le_of_lt_add_one BitVec.toInt_lt
  case maxB =>
    have := BitVec.toInt_lt (x := (decodeB w).offset)
    omega
  case maxJ =>
    have := BitVec.toInt_lt (x := (decodeJ w).offset)
    omega

/-- Settles O7: the decoder, run on the nine words. -/
theorem writtenOutWordsDecode : Obligations.WrittenOutWordsDecode := by
  unfold Obligations.WrittenOutWordsDecode
  decide

end Sys2Proof
end
